-- ==== Sys2Proof/Word.lean ====
section
/-! DEFINITION. The widths of CA1-CORE: bytes, the 9-bit program counter, register indices and interrupt lines. -/

namespace Sys2Proof

/-- A general register, a memory byte, an operand byte: 8 bits, unsigned (R7, R20). -/
abbrev Byte := BitVec 8

/-- The program counter and the two wide fault latches: 9 bits (R30, R36). -/
abbrev Pc := BitVec 9

/-- The index of a general register, 0 to 7 (R20). -/
abbrev Reg := Fin 8

/-- The number of an interrupt line, 0 to 7 (R180). -/
abbrev Line := Fin 8

end Sys2Proof
end

