-- ==== Sys2Proof/Syntax.lean ====
section
/-! DEFINITION. The 17 instructions of 30_encoding.md R88, with their operand bytes as the engine reads them. -/

namespace Sys2Proof

/-- The names of the instructions, in the order of R88's table; the dispatch table maps an opcode byte to one of
them (R87). -/
inductive Mnemonic where
  | hlt | ldi | add | mul | prn | pra | push | pop | call | ret | jmp | st | cmp | jeq | jne | int | iret
deriving DecidableEq, Repr

/-- An instruction with its operand bytes (R81). A register operand is the whole BYTE read at `pc + 1` or `pc + 2`:
that it is at most 7 is checked by the handler (R85, R106), so a byte above 7 is a term here and `WellFormed` refuses
it. -/
inductive Instr where
  | hlt
  | ldi (r imm : Byte)
  | add (a b : Byte)
  | mul (a b : Byte)
  | prn (r : Byte)
  | pra (r : Byte)
  | push (r : Byte)
  | pop (r : Byte)
  | call (r : Byte)
  | ret
  | jmp (r : Byte)
  | st (a b : Byte)
  | cmp (a b : Byte)
  | jeq (r : Byte)
  | jne (r : Byte)
  | int (r : Byte)
  | iret
deriving DecidableEq, Repr

end Sys2Proof
end

