-- ==== Sys2Proof/Config.lean ====
section
/-! DEFINITION. The parameters of CA1-CORE (00_scope.md R5). -/

namespace Sys2Proof

/-- `OPC`, the map from instruction to opcode byte: an argument of the decoder, the encoder and the tick (R88). Its
default is `defaultOpc` in Decode.lean. -/
abbrev OpcodeMap := Mnemonic → Byte

/-- The constraints R89 puts on `OPC`: distinct bytes, the three opcodes CA1 prints, and none is 0xFF. -/
def OpcodeMap.Valid (opc : OpcodeMap) : Prop :=
  (∀ m n, opc m = opc n → m = n) ∧ opc .ldi = 0x04 ∧ opc .prn = 0x46 ∧ opc .hlt = 0x1B ∧ ∀ m, opc m ≠ 0xFF

/-- `MEM_SIZE`: 256 bytes (R5, R50, R67). -/
def Config.memSize : Nat := 256

/-- `SP_INIT`: the value of register 7 at reset (R5, R24). -/
def Config.spInit : Byte := 0xF8

/-- `IM_REG`, `IS_REG`, `SP_REG`: the registers with a use by the hardware (R5, R21). -/
def Config.imReg : Reg := 5
@[inherit_doc Config.imReg] def Config.isReg : Reg := 6
@[inherit_doc Config.imReg] def Config.spReg : Reg := 7

/-- The default of `TIMER_LINE`, the line the platform timer asserts (R5, R182). `TIMER_LINE` itself is OPEN: an argument
of `State.timerRequest`, which takes this value where none is given. -/
def Config.timerLine : Line := 0

end Sys2Proof
end

