-- ==== Sys2Proof/Decode.lean ====
section
/-! DEFINITION. The opcode map, the dispatch table, the decoder and the encoder (30_encoding.md). -/

namespace Sys2Proof

/-- The default of `OPC`, R88's table. LDI, PRN and HLT are CA1's; the other 14 are the spec's decision D6, which the
spec itself calls unverified. UNVERIFIED, log entry 7: unsafe where a claim names one of those bytes. -/
def defaultOpc : OpcodeMap
  | .hlt => 0x1B
  | .ldi => 0x04
  | .add => 0x0C
  | .mul => 0x05
  | .prn => 0x46
  | .pra => 0x07
  | .push => 0x0A
  | .pop => 0x0B
  | .call => 0x0F
  | .ret => 0x10
  | .jmp => 0x11
  | .st => 0x09
  | .cmp => 0x16
  | .jeq => 0x13
  | .jne => 0x14
  | .int => 0x19
  | .iret => 0x1A

/-- The 17 instructions, in the order of R88's table. -/
def Mnemonic.all : List Mnemonic :=
  [.hlt, .ldi, .add, .mul, .prn, .pra, .push, .pop, .call, .ret, .jmp, .st, .cmp, .jeq, .jne, .int, .iret]

/-- The dispatch table built from `OPC`: the handler an opcode byte has, if any (R87, R105). The whole byte is
compared (R82). -/
def lookup (opc : OpcodeMap) (op : Byte) : Option Mnemonic :=
  Mnemonic.all.find? fun m => opc m == op

/-- Why bytes are not an instruction. -/
inductive DecodeError where
  /-- There is no byte at all: the opcode lies beyond the memory (R104). -/
  | noOpcode
  /-- The opcode byte has no dispatch-table entry (R90, R105). -/
  | invalidOpcode (op : Byte)
  /-- The opcode has a handler, and its operand byte number `k` (1 or 2) lies beyond the bytes (R106). -/
  | missingOperand (op : Byte) (k : Nat)
deriving DecidableEq, Repr

/-- What a decoder answers: the instruction with the bytes after it, or why there is none. -/
abbrev Decoded := Except DecodeError (Instr × List Byte)

/-- Format Z: the opcode byte alone (R81). -/
def formatZ (i : Instr) (rest : List Byte) : Decoded :=
  .ok (i, rest)

/-- Format R: one operand byte, at `pc + 1` (R81). -/
def formatR (mk : Byte → Instr) (op : Byte) : List Byte → Decoded
  | [] => .error (.missingOperand op 1)
  | r :: rest => .ok (mk r, rest)

/-- Formats RR and RI: two operand bytes, the first named at `pc + 1` and the second at `pc + 2` (R81). -/
def formatRR (mk : Byte → Byte → Instr) (op : Byte) : List Byte → Decoded
  | [] => .error (.missingOperand op 1)
  | [_] => .error (.missingOperand op 2)
  | a :: b :: rest => .ok (mk a b, rest)

/-- The operand bytes of a named instruction: their number depends on the instruction alone (R80, R93). -/
def decodeOperands (m : Mnemonic) (op : Byte) (rest : List Byte) : Decoded :=
  match m with
  | .hlt => formatZ .hlt rest
  | .ldi => formatRR .ldi op rest
  | .add => formatRR .add op rest
  | .mul => formatRR .mul op rest
  | .prn => formatR .prn op rest
  | .pra => formatR .pra op rest
  | .push => formatR .push op rest
  | .pop => formatR .pop op rest
  | .call => formatR .call op rest
  | .ret => formatZ .ret rest
  | .jmp => formatR .jmp op rest
  | .st => formatRR .st op rest
  | .cmp => formatRR .cmp op rest
  | .jeq => formatR .jeq op rest
  | .jne => formatR .jne op rest
  | .int => formatR .int op rest
  | .iret => formatZ .iret rest

/-- Decoding, on any bytes (R86): the opcode byte selects the instruction and so its length; the operand bytes follow.
A register operand byte above 7 is not refused here: it is the handler that checks it, after it has read all its
operand bytes (R85, R106 part 2), and `exec` then raises ILLEGAL_OPERAND. -/
def decode (opc : OpcodeMap) : List Byte → Decoded
  | [] => .error .noOpcode
  | op :: rest =>
    match lookup opc op with
    | none => .error (.invalidOpcode op)
    | some m => decodeOperands m op rest

/-- The instruction's name, which its opcode byte stands for. -/
def Instr.mnemonic : Instr → Mnemonic
  | .hlt => .hlt
  | .ldi _ _ => .ldi
  | .add _ _ => .add
  | .mul _ _ => .mul
  | .prn _ => .prn
  | .pra _ => .pra
  | .push _ => .push
  | .pop _ => .pop
  | .call _ => .call
  | .ret => .ret
  | .jmp _ => .jmp
  | .st _ _ => .st
  | .cmp _ _ => .cmp
  | .jeq _ => .jeq
  | .jne _ => .jne
  | .int _ => .int
  | .iret => .iret

/-- The instruction's operand bytes, in the order they follow the opcode (R81). -/
def Instr.operands : Instr → List Byte
  | .hlt => []
  | .ldi r imm => [r, imm]
  | .add a b => [a, b]
  | .mul a b => [a, b]
  | .prn r => [r]
  | .pra r => [r]
  | .push r => [r]
  | .pop r => [r]
  | .call r => [r]
  | .ret => []
  | .jmp r => [r]
  | .st a b => [a, b]
  | .cmp a b => [a, b]
  | .jeq r => [r]
  | .jne r => [r]
  | .int r => [r]
  | .iret => []

/-- The width of an instruction in bytes: "1 + operand count" (R80). -/
def Mnemonic.width : Mnemonic → Nat
  | .hlt | .ret | .iret => 1
  | .prn | .pra | .push | .pop | .call | .jmp | .jeq | .jne | .int => 2
  | .ldi | .add | .mul | .st | .cmp => 3

/-- The bytes of an instruction, lowest address first (R81). -/
def encode (opc : OpcodeMap) (i : Instr) : List Byte :=
  opc i.mnemonic :: i.operands

/-- The `n` bytes of a number written with its FIRST byte most significant. -/
def bytesOfNumber : Nat → Nat → List Byte
  | 0, _ => []
  | n + 1, w => BitVec.ofNat 8 (w / 256 ^ n) :: bytesOfNumber n w

/-- The bytes an opcode-table row's number `w` of `nbits` bits stands for, padded with zero bytes to the longest
instruction. The table writes byte 0 (the opcode, at the lowest address) as the MOST significant byte (30_encoding.md,
the conventions of `opcode_table.json`). DEDUCED, log entry 8. -/
def tableBytes (nbits w : Nat) : List Byte :=
  bytesOfNumber ((nbits + 7) / 8) w ++ List.replicate (3 - (nbits + 7) / 8) 0

/-- The instruction the decoder reads from a number of the opcode table, under the default `OPC`. -/
def decodeTableWord (nbits w : Nat) : Option Instr :=
  match decode defaultOpc (tableBytes nbits w) with
  | .ok (i, _) => some i
  | .error _ => none

end Sys2Proof
end

