-- ==== Sys2Proof/Machine/State.lean ====
section
/-! DEFINITION. The state of CA1-CORE (10_state.md), its fatal conditions, and the state after reset. -/

namespace Sys2Proof.Machine

/-- The run state of the engine (R35). -/
inductive RunState where
  | running | halted | faulted
deriving DecidableEq, Repr

/-- The kind of an output event: DEC from PRN, CHR from PRA (R130). -/
inductive OutKind where
  | dec | chr
deriving DecidableEq, Repr

/-- One event of the output port (R130). -/
structure OutEvent where
  kind : OutKind
  val : Byte
deriving DecidableEq, Repr

/-- The fatal conditions of R170, with what the latches record of each. The engine RAISES one by `State.raise`, whose
result is a NEXT state with `run = FAULTED` (R174, R110): no step and no meaning answers the host's outcome `fault`, so
no run stops on one. DESIGN CHOICE, log entry 1: safe. -/
inductive Fault where
  /-- Raised by the decode step: the byte `op` at `addr` has no handler (R172). Safe: the spec's own behaviour. -/
  | invalidOpcode (addr : Pc) (op : Byte)
  /-- Raised by the fetch and the operand fetch: the address `addr` is 256 or more (R171). Safe: the spec's own
  behaviour. -/
  | memRange (addr : Pc)
  /-- Raised by the operand check: the register operand byte `val` at `addr` is above 7 (R175). Safe: the spec's own
  behaviour. -/
  | illegalOperand (addr : Pc) (val : Byte)
  /-- Raised by CALL and by interrupt entry: the return address `ret` is 256 or more, at `pc` (R173). Safe: the spec's
  own behaviour. -/
  | dataRange (pc : Pc) (ret : Pc)
deriving DecidableEq, Repr

/-- Why a step has no meaning. -/
inductive Refusal where
  /-- Raised by `exec` alone, for an instruction that has no meaning yet; none is left. Safe. -/
  | notModelled (mnemonic : String)
deriving DecidableEq, Repr

/-- Memory as (address, byte) pairs, in the canonical form `Memory.wf`. -/
abbrev Memory := List Host.Cell

/-- Every piece of state the spec gives CA1-CORE (R10, R38), and the model's own field `irqIn`. -/
structure State where
  /-- `x[0]` to `x[7]` (R20); 5 is IM, 6 is IS, 7 is SP (R21). -/
  regs : Vector Byte 8
  /-- The program counter, 0 to 256 (R28, R30). -/
  pc : Pc
  /-- The instruction register (R31). -/
  ir : Byte
  /-- The flag interruptsEnabled (R33). -/
  ie : Bool
  /-- The flag equal (R32). -/
  eq : Bool
  /-- The run state (R35). -/
  run : RunState
  /-- The fault latches (R36, R170). -/
  fcause : BitVec 3
  faddr : Pc
  fval : Pc
  /-- The 256 memory bytes (R50). -/
  mem : Memory
  /-- The output history, oldest event first (R37, R133). -/
  out : List OutEvent
  /-- The MODEL's own field: the values of the request input `irq_set` at the coming cycle boundaries, the next one
  first (R181). Any list is a schedule (R12). DESIGN CHOICE, log entry 3. The list is finite, so requests COME TO AN
  END: past it no line is requested, and no run has requests for ever, as a periodic timer's are. The spec does not say so:
  DESIGN CHOICE, log entry 15, unsafe for a claim about what happens in the end. -/
  irqIn : List Byte
deriving DecidableEq, Repr

/-- What a step or a meaning answers. -/
abbrev Result := Host.Outcome State Fault Refusal

/-- The machine right after reset (R39, R220). The memory lists nothing (log entry 5) and no request is scheduled (log
entry 3): both are DESIGN CHOICE, the spec leaves them open. -/
def State.reset : State where
  regs := #v[0, 0, 0, 0, 0, 0, 0, Config.spInit]
  pc := 0
  ir := 0
  ie := true
  eq := false
  run := .running
  fcause := 0
  faddr := 0
  fval := 0
  mem := []
  out := []
  irqIn := []

end Sys2Proof.Machine
end

