-- ==== Sys2Proof/Machine/Ops.lean ====
section
/-! DEFINITION. The operations over memory, registers and the stack; raising a fatal condition; interrupt entry and the
return from it; what the outside does (requests, reset, loading). -/

namespace Sys2Proof.Machine

/-! ### Memory -/

/-- What an address with no entry reads as. DESIGN CHOICE, log entry 5: MEM_INIT is open (R68); unsafe for a claim about
bytes that a state does not list. -/
def Memory.unlisted (_a : Nat) : Byte := 0

/-- The byte at an address. -/
def Memory.read : Memory → Nat → Byte
  | [], a => Memory.unlisted a
  | (b, v) :: m, a => if b = a then v else Memory.read m a

/-- The memory without an entry for `a`. -/
def Memory.erase (m : Memory) (a : Nat) : Memory :=
  m.filter fun c => c.1 != a

/-- The memory with an entry put in front of the first higher address. -/
def Memory.insert : Memory → Nat → Byte → Memory
  | [], a, v => [(a, v)]
  | (b, w) :: m, a, v => if a < b then (a, v) :: (b, w) :: m else (b, w) :: Memory.insert m a v

/-- The memory with byte `a` set to `v` and no other byte changed (R53). Writing what an unlisted address reads as
removes the entry. -/
def Memory.write (m : Memory) (a : Nat) (v : Byte) : Memory :=
  if v = Memory.unlisted a then m.erase a else (m.erase a).insert a v

/-- The canonical form from address `lo` on. -/
def Memory.wfFrom : Nat → Memory → Bool
  | _, [] => true
  | lo, (a, v) :: m =>
    decide (lo ≤ a) && decide (a < Config.memSize) && decide (v ≠ Memory.unlisted a) && Memory.wfFrom (a + 1) m

/-- The canonical form: addresses strictly rising and below 256, and no entry equal to what an unlisted address reads
as. -/
def Memory.wf (m : Memory) : Bool := Memory.wfFrom 0 m

/-- Bytes written one after the other from `a` up; a byte beyond the memory is not written. -/
def Memory.writeList : Memory → Nat → List Byte → Memory
  | m, _, [] => m
  | m, a, v :: vs =>
    if a < Config.memSize then Memory.writeList (m.write a v) (a + 1) vs else m

/-! ### Registers and the other fields -/

/-- `x[r]` (R8). -/
def State.reg (s : State) (r : Reg) : Byte := s.regs[r]

/-- `x[r] <- v` (R8). Every register takes every value: none is hardwired (R20, R21). -/
def State.setReg (s : State) (r : Reg) (v : Byte) : State := { s with regs := s.regs.set r v }

/-- `pc <- p`. -/
def State.setPc (s : State) (p : Pc) : State := { s with pc := p }

/-- A byte as a 9-bit number of the same value: `zext_9` (R7). -/
def zext9 (b : Byte) : Pc := b.setWidth 9

/-- `pc <- zext_9(b)`: every transfer's target (R150). -/
def State.jump (s : State) (b : Byte) : State := s.setPc (zext9 b)

/-- `pc <- pc + n`: the fixed increment by the width (R29). 9-bit; a `pc` above 256 arises in no run (R30, log entry
12). -/
def State.advance (s : State) (n : Nat) : State := s.setPc (s.pc + BitVec.ofNat 9 n)

/-- `ir <- b` (R31). -/
def State.setIr (s : State) (b : Byte) : State := { s with ir := b }

/-- `ie <- b` (R33). -/
def State.setIe (s : State) (b : Bool) : State := { s with ie := b }

/-- `run <- HALTED` (R109). -/
def State.halt (s : State) : State := { s with run := .halted }

/-- `Emit(kind, v)`: the event goes to the end of the output history; it never delays or fails (R130). -/
def State.emit (s : State) (kind : OutKind) (v : Byte) : State := { s with out := s.out ++ [⟨kind, v⟩] }

/-- `out_kind`, the pin that carries an event's kind: 0 for DEC and 1 for CHR (R130). -/
def OutKind.code : OutKind → BitVec 1
  | .dec => 0
  | .chr => 1

/-- The status output `halted` (R179). -/
def State.haltedOut (s : State) : Bool := decide (s.run = .halted)

/-- The status output `fault` (R179). -/
def State.faultOut (s : State) : Bool := decide (s.run = .faulted)

/-! ### Memory accesses of the engine -/

/-- `M[a]` at an address that is a byte, so always in range (R59). -/
def State.load (s : State) (a : Byte) : Byte := s.mem.read a.toNat

/-- `MemWrite(a, 1, v)` at an address that is a byte: R53's MEM_RANGE arm is not there to take. -/
def State.store (s : State) (a v : Byte) : State := { s with mem := s.mem.write a.toNat v }

/-- `MemRead(a, 1)` at any address: MEM_RANGE at 256 or more, and no other effect (R52). -/
def memRead (s : State) (a : Nat) : Except Fault Byte :=
  if Config.memSize ≤ a then .error (.memRange (BitVec.ofNat 9 a)) else .ok (s.mem.read a)

/-- `MemWrite(a, 1, v)` at any address: MEM_RANGE at 256 or more, else exactly that byte (R53). The engine's own write
addresses are bytes, where this is `State.store` (`memWrite_byte`). -/
def memWrite (s : State) (a : Nat) (v : Byte) : Except Fault State :=
  if Config.memSize ≤ a then .error (.memRange (BitVec.ofNat 9 a)) else .ok { s with mem := s.mem.write a v }

/-! ### Fatal conditions -/

/-- `fcause` of a fatal condition (R36, R170). -/
def Fault.code : Fault → BitVec 3
  | .invalidOpcode _ _ => 1
  | .memRange _ => 2
  | .illegalOperand _ _ => 3
  | .dataRange _ _ => 4

/-- `faddr` of a fatal condition (R170). -/
def Fault.addr : Fault → Pc
  | .invalidOpcode addr _ => addr
  | .memRange addr => addr
  | .illegalOperand addr _ => addr
  | .dataRange pc _ => pc

/-- `fval` of a fatal condition (R170). -/
def Fault.info : Fault → Pc
  | .invalidOpcode _ op => zext9 op
  | .memRange _ => 0
  | .illegalOperand _ val => zext9 val
  | .dataRange _ ret => ret

/-- `raise F(info)` (R174): `run <- FAULTED` and the latches are written; nothing else changes. It is applied to the
state before any write of the cycle but that of `ir`, which is how every write of the cycle but that of `ir` is dropped. -/
def State.raise (s : State) (f : Fault) : State :=
  { s with run := .faulted, fcause := f.code, faddr := f.addr, fval := f.info }

/-! ### The stack -/

/-- `x[7] <- (x[7] - 1) mod 256` (R22, R140). -/
def State.spDown (s : State) : State := s.setReg Config.spReg (s.reg Config.spReg - 1)

/-- `x[7] <- (x[7] + 1) mod 256` (R22, R141). -/
def State.spUp (s : State) : State := s.setReg Config.spReg (s.reg Config.spReg + 1)

/-- `Push(v)`: the stack pointer goes down, then the byte is written there (R140). -/
def State.push (s : State) (v : Byte) : State := s.spDown.store (s.spDown.reg Config.spReg) v

/-- The byte `Pop()` returns (R141). -/
def State.top (s : State) : Byte := s.load (s.reg Config.spReg)

/-- `PushReg(r)`: `x[r]` is read after the decrement (R142). -/
def State.pushReg (s : State) (r : Reg) : State := s.push (s.spDown.reg r)

/-- `PopReg(r)`: `x[7]` is read, and incremented, after `x[r]` is written (R142). -/
def State.popReg (s : State) (r : Reg) : State := (s.setReg r s.top).spUp

/-! ### Interrupts -/

/-- `IRQ_RET_ADV`, what interrupt entry adds to `pc` (R187). -/
def irqRetAdv : Nat := 2

/-- `VEC_BASE`, the first byte of the vector table (R56). -/
def vecBase : Byte := 0xF8

/-- The return address `pc + n` as an integer (R151, R186): not reduced, so that R173 can refuse it. -/
def State.retAddr (s : State) (n : Nat) : Nat := s.pc.toNat + n

/-- The mask of a line, `1 << i` (R6). -/
def lineBit (i : Line) : Byte := 1#8 <<< i.val

/-- The address of the vector entry of a line, `0xF8 + i` (R56). -/
def vectorAddr (i : Line) : Byte := vecBase + BitVec.ofNat 8 i.val

/-- The lines, in the order of priority (R185). -/
def allLines : List Line := [0, 1, 2, 3, 4, 5, 6, 7]

/-- `pending = IS & IM` (R184). -/
def State.pending (s : State) : Byte := s.reg Config.isReg &&& s.reg Config.imReg

/-- The interrupt check: with `ie = 1`, the least line that is pending and unmasked (R184, R185). -/
def State.takenLine (s : State) : Option Line :=
  if s.ie then allLines.find? fun i => s.pending.getLsbD i.val else none

/-- The registers in the order interrupt entry pushes them (R186). -/
def pushOrder : List Reg := [0, 1, 2, 3, 4, 5, 6, 7]

/-- The registers in the order IRET pops them (R162). -/
def popOrder : List Reg := [7, 6, 5, 4, 3, 2, 1, 0]

/-- `x[6] <- x[6] & ~(1 << i)` (R186, E1). -/
def State.clearPending (s : State) (i : Line) : State :=
  s.setReg Config.isReg (s.reg Config.isReg &&& ~~~ lineBit i)

/-- The save steps E0 to E10 of R186: `ie` off, the line's pending bit off, the return address and then the registers
pushed. -/
def State.saveFrame (s : State) (i : Line) (ret : Byte) : State :=
  pushOrder.foldl State.pushReg (((s.setIe false).clearPending i).push ret)

/-- Interrupt entry for line `i` (R186): DATA_RANGE before any change when the return address is not a byte (R189), else
the save steps and the jump through the vector entry, read after them. -/
def interruptEntry (i : Line) (s : State) : Result :=
  if 256 ≤ s.retAddr irqRetAdv then
    .next (s.raise (.dataRange s.pc (BitVec.ofNat 9 (s.retAddr irqRetAdv))))
  else
    let t := s.saveFrame i (BitVec.ofNat 8 (s.retAddr irqRetAdv))
    .next (t.jump (t.load (vectorAddr i)))

/-- The return from an interrupt (R162): the registers popped from 7 down to 0, then `pc`, then `ie` on. -/
def State.restoreFrame (s : State) : State :=
  let t := popOrder.foldl State.popReg s
  (t.spUp.jump t.top).setIe true

/-! ### What the outside does -/

/-- A request on the lines of `bits`: `x[6] <- x[6] | irq_set`, and nothing else (R181). -/
def State.request (s : State) (bits : Byte) : State :=
  s.setReg Config.isReg (s.reg Config.isReg ||| bits)

/-- The platform timer's request, on its one line: the parameter `TIMER_LINE` with its default (R5, R182). -/
def State.timerRequest (s : State) (line : Line := Config.timerLine) : State := s.request (lineBit line)

/-- The sampling of `irq_set` at a cycle boundary (R181): the next scheduled value is taken, none past the end of the
schedule. That there is an end is the model's choice: DESIGN CHOICE, log entry 15. -/
def State.sampleIrq (s : State) : State :=
  match s.irqIn with
  | [] => s
  | bits :: rest => { s.request bits with irqIn := rest }

/-- The reset input, from any state (R220, R221): every piece of engine state takes its reset value; memory is kept
(R222), and so is the schedule of requests, which is not the engine's. -/
def State.applyReset (s : State) : State := { State.reset with mem := s.mem, irqIn := s.irqIn }

/-- The host's part before the start: an image written from address 0 up (R55, R63, R224). -/
def State.loadImage (s : State) (image : List Byte) : State := { s with mem := s.mem.writeList 0 image }

end Sys2Proof.Machine
end

