-- ==== Sys2Proof/Machine/Operands.lean ====
section
/-! DEFINITION. Operand fetch and operand check, the first two parts of every handler (R106). -/

namespace Sys2Proof.Machine

/-- `RegOperand(b)` for the operand byte `b` at `pc + k` (R85): a byte above 7 raises ILLEGAL_OPERAND, with its address
and value (R170). -/
def regOperand (s : State) (k : Nat) (b : Byte) : Except Fault Reg :=
  if h : b.toNat < 8 then .ok ⟨b.toNat, h⟩ else .error (.illegalOperand (s.pc + BitVec.ofNat 9 k) b)

/-- Operand check of format R (and of RI, whose byte 2 is no register), then the effect (R106 parts 2 and 3). -/
def withReg (s : State) (r : Byte) (effect : Reg → Result) : Result :=
  match regOperand s 1 r with
  | .error f => .next (s.raise f)
  | .ok r => effect r

/-- Operand check of format RR, the first operand first (R106, R176), then the effect. -/
def withRegs (s : State) (a b : Byte) (effect : Reg → Reg → Result) : Result :=
  match regOperand s 1 a with
  | .error f => .next (s.raise f)
  | .ok a =>
    match regOperand s 2 b with
    | .error f => .next (s.raise f)
    | .ok b => effect a b

/-- The bytes at `a`, `a + 1`, ... up to `n` of them, as far as `MemRead` gives one: what the engine can read at `pc`
and after it (R86, R106 part 1). Reading has no effect (R52), so the bytes the instruction does not have are not
missed. Log entry 13. -/
def readWindow (s : State) : Nat → Nat → List Byte
  | 0, _ => []
  | n + 1, a =>
    match memRead s a with
    | .error _ => []
    | .ok b => b :: readWindow s n (a + 1)

/-- The bytes at `pc`, as many as the longest instruction has. -/
def State.window (s : State) : List Byte := readWindow s 3 s.pc.toNat

end Sys2Proof.Machine
end

