-- ==== Sys2Proof/Machine/Flags.lean ====
section
/-! DEFINITION. The flag `equal`, the only flag an instruction computes (R34). -/

namespace Sys2Proof.Machine

/-- The comparison of CMP: the two bytes as they are, equal or not, outside the ALU (R126). -/
def compareEqual (va vb : Byte) : Bool := decide (va = vb)

/-- `eq <- b` (R32). -/
def State.setEq (s : State) (b : Bool) : State := { s with eq := b }

end Sys2Proof.Machine
end

