-- ==== Sys2Proof/Machine/Alu.lean ====
section
/-! DEFINITION. The ALU and LDI, ADD, MUL, CMP (41_alu_data.md). -/

namespace Sys2Proof.Machine

/-- The operation select of the ALU: two values (R121, R122). -/
inductive AluOp where
  | add | mul
deriving DecidableEq, Repr

/-- The ALU's result: the low 8 bits of the true sum or product of two unsigned values (R120). -/
def aluResult (op : AluOp) (va vb : Byte) : Byte :=
  match op with
  | .add => BitVec.ofNat 8 (va.toNat + vb.toNat)
  | .mul => BitVec.ofNat 8 (va.toNat * vb.toNat)

/-- `alu(op, d, s)`: both registers are read, then `x[d]` is written; no flag, no fault, no memory, no `pc` (R120). -/
def State.alu (s : State) (op : AluOp) (d r : Reg) : State := s.setReg d (aluResult op (s.reg d) (s.reg r))

/-- LDI (R123): `x[r] <- imm`, `pc <- pc + 3`. -/
def execLdi (r imm : Byte) (s : State) : Result :=
  withReg s r fun r => .next ((s.setReg r imm).advance 3)

/-- ADD (R124): `x[a] <- (x[a] + x[b]) mod 256`, `pc <- pc + 3`. -/
def execAdd (a b : Byte) (s : State) : Result :=
  withRegs s a b fun a b => .next ((s.alu .add a b).advance 3)

/-- MUL (R125): `x[a] <- (x[a] * x[b]) mod 256`, `pc <- pc + 3`. -/
def execMul (a b : Byte) (s : State) : Result :=
  withRegs s a b fun a b => .next ((s.alu .mul a b).advance 3)

/-- CMP (R126): `eq <- (x[a] == x[b])`, `pc <- pc + 3`. -/
def execCmp (a b : Byte) (s : State) : Result :=
  withRegs s a b fun a b => .next ((s.setEq (compareEqual (s.reg a) (s.reg b))).advance 3)

end Sys2Proof.Machine
end

