-- ==== Sys2Proof/Machine/Control.lean ====
section
/-! DEFINITION. CALL, RET, JMP, JEQ and JNE (44_control_transfer.md). -/

namespace Sys2Proof.Machine

/-- CALL (R151): DATA_RANGE before any change when the return address `pc + 2` is not a byte; else it is pushed, and
`pc <- zext_9(x[r])` with `x[r]` read after the push. -/
def execCall (r : Byte) (s : State) : Result :=
  withReg s r fun r =>
    if 256 ≤ s.retAddr 2 then
      .next (s.raise (.dataRange s.pc (BitVec.ofNat 9 (s.retAddr 2))))
    else
      let t := s.push (BitVec.ofNat 8 (s.retAddr 2))
      .next (t.jump (t.reg r))

/-- RET (R152): `pc <- zext_9(Pop())`. -/
def execRet (s : State) : Result := .next (s.spUp.jump s.top)

/-- JMP (R153): `pc <- zext_9(x[r])`. -/
def execJmp (r : Byte) (s : State) : Result :=
  withReg s r fun r => .next (s.jump (s.reg r))

/-- JEQ (R154): the jump if `eq`, else `pc <- pc + 2`. -/
def execJeq (r : Byte) (s : State) : Result :=
  withReg s r fun r => .next (if s.eq then s.jump (s.reg r) else s.advance 2)

/-- JNE (R155): the jump if not `eq`, else `pc <- pc + 2`. -/
def execJne (r : Byte) (s : State) : Result :=
  withReg s r fun r => .next (if s.eq then s.advance 2 else s.jump (s.reg r))

end Sys2Proof.Machine
end

