-- ==== Sys2Proof/Machine/Halt.lean ====
section
/-! DEFINITION. HLT (40_execution_cycle.md). -/

namespace Sys2Proof.Machine

/-- HLT (R109): `run <- HALTED`, `pc <- pc + 1` (the spec's decision D8). -/
def execHlt (s : State) : Result := .next (s.halt.advance 1)

end Sys2Proof.Machine
end

