-- ==== Sys2Proof/Machine/Interrupt.lean ====
section
/-! DEFINITION. INT and IRET (45_interrupt_instructions.md). -/

namespace Sys2Proof.Machine

/-- INT (R160): the operand byte is checked, `pc <- pc + 2`, and nothing else (CA1's "no-op placeholder", the spec's
decision D7). -/
def execInt (r : Byte) (s : State) : Result :=
  withReg s r fun _ => .next (s.advance 2)

/-- IRET (R162), executed anywhere (the spec's decision D22). -/
def execIret (s : State) : Result := .next s.restoreFrame

end Sys2Proof.Machine
end

