-- ==== Sys2Proof/Machine/Output.lean ====
section
/-! DEFINITION. PRN and PRA (42_output.md). -/

namespace Sys2Proof.Machine

/-- PRN (R131): `Emit(DEC, x[r])`, `pc <- pc + 2`. -/
def execPrn (r : Byte) (s : State) : Result :=
  withReg s r fun r => .next ((s.emit .dec (s.reg r)).advance 2)

/-- PRA (R132): `Emit(CHR, x[r])`, `pc <- pc + 2`. -/
def execPra (r : Byte) (s : State) : Result :=
  withReg s r fun r => .next ((s.emit .chr (s.reg r)).advance 2)

end Sys2Proof.Machine
end

