-- ==== Sys2Proof/Machine/Stack.lean ====
section
/-! DEFINITION. PUSH, POP and ST (43_stack_memory.md). -/

namespace Sys2Proof.Machine

/-- PUSH (R143): `PushReg(r)`, `pc <- pc + 2`. -/
def execPush (r : Byte) (s : State) : Result :=
  withReg s r fun r => .next ((s.pushReg r).advance 2)

/-- POP (R144): `PopReg(r)`, `pc <- pc + 2`. -/
def execPop (r : Byte) (s : State) : Result :=
  withReg s r fun r => .next ((s.popReg r).advance 2)

/-- ST (R145): `MemWrite(x[a], 1, x[b])`, `pc <- pc + 3`. -/
def execSt (a b : Byte) (s : State) : Result :=
  withRegs s a b fun a b => .next ((s.store (s.reg a) (s.reg b)).advance 3)

end Sys2Proof.Machine
end

