-- ==== Sys2Proof/Machine/Cycle.lean ====
section
/-! DEFINITION. One cycle and one tick of the engine (40_execution_cycle.md R100, R101). -/

namespace Sys2Proof.Machine

/-- The fetch step's write: `ir <- M[pc]` (R104). -/
def State.fetched (s : State) : State := s.setIr (s.mem.read s.pc.toNat)

/-- What a cycle whose bytes are no instruction ends in (R104 to R106, R176): no opcode byte is MEM_RANGE at `pc` with
`ir` not written; a byte with no handler is INVALID_OPCODE; an operand byte beyond the memory is MEM_RANGE at its
address. -/
def State.undecoded (s : State) : DecodeError → State
  | .noOpcode => s.raise (.memRange s.pc)
  | .invalidOpcode op => s.fetched.raise (.invalidOpcode s.pc op)
  | .missingOperand _ k => s.fetched.raise (.memRange (s.pc + BitVec.ofNat 9 k))

/-- Steps 2 to 4 of a cycle (R101): fetch, decode, execute. -/
def fetchExecute (opc : OpcodeMap) (s : State) : Result :=
  match decode opc s.window with
  | .ok (i, _) => exec i s.fetched
  | .error e => .next (s.undecoded e)

/-- One cycle (R101): the interrupt check first; a cycle that takes an interrupt does not fetch (R102). -/
def cycle (opc : OpcodeMap) (s : State) : Result :=
  match s.takenLine with
  | some i => interruptEntry i s
  | none => fetchExecute opc s

/-- One tick (R100): in RUNNING, the requests at the boundary are sampled (R181) and one cycle is done; in HALTED and
FAULTED nothing happens, and requests are ignored (R110). -/
def tick (opc : OpcodeMap) (s : State) : Result :=
  match s.run with
  | .running => cycle opc s.sampleIrq
  | .halted => .next s
  | .faulted => .next s

/-- The state with a word of the opcode table stored at `pc`, where the next cycle fetches. -/
def State.placeWord (s : State) (nbits w : Nat) : State :=
  { s with mem := s.mem.writeList s.pc.toNat (tableBytes nbits w) }

end Sys2Proof.Machine
end

