-- ==== Sys2Proof/Machine/Step.lean ====
section
/-! DEFINITION. The step of the machine: one tick under the default opcode map. -/

namespace Sys2Proof.Machine

/-- One tick (R100) with `OPC` at its default (R88, log entry 7). -/
def step (s : State) : Host.Outcome State Fault Refusal := tick defaultOpc s

/-- `s` with the instruction of an opcode-table word stored at `pc` and nothing else changed: in a running state that
takes no interrupt, `step` fetches and runs it. -/
def State.withFetchWord (s : State) (nbits w : Nat) : State := s.placeWord nbits w

end Sys2Proof.Machine
end

