-- ==== Sys2Proof/WellFormed.lean ====
section
/-! DEFINITION. Which instructions are free of a reserved encoding (30_encoding.md R83, R91). -/

namespace Sys2Proof

/-- A register operand byte is an index 0 to 7: bits 7:3 are zero (R83). -/
def isRegByte (b : Byte) : Bool := decide (b.toNat < 8)

/-- Every register operand byte of the instruction is an index; the immediate of LDI is never checked (R84, R123). -/
def Instr.wf : Instr → Bool
  | .hlt => true
  | .ldi r _ => isRegByte r
  | .add a b => isRegByte a && isRegByte b
  | .mul a b => isRegByte a && isRegByte b
  | .prn r => isRegByte r
  | .pra r => isRegByte r
  | .push r => isRegByte r
  | .pop r => isRegByte r
  | .call r => isRegByte r
  | .ret => true
  | .jmp r => isRegByte r
  | .st a b => isRegByte a && isRegByte b
  | .cmp a b => isRegByte a && isRegByte b
  | .jeq r => isRegByte r
  | .jne r => isRegByte r
  | .int r => isRegByte r
  | .iret => true

/-- The instruction has no reserved operand byte (R91). -/
abbrev Instr.WellFormed (i : Instr) : Prop := i.wf = true

end Sys2Proof
end

