-- ==== Sys2Proof/Safety.lean ====
section
/-! DEFINITION. The terms the claims use: what a step leaves unchanged, when it fetches, the invariant of the machine,
and the parts the rules of all instructions share. -/

namespace Sys2Proof

/-! ### The registers an instruction writes -/

/-- The registers R23's table says an instruction writes, for operand bytes that are indices. -/
def Instr.writes : Instr → List Byte
  | .ldi r _ => [r]
  | .add a _ => [a]
  | .mul a _ => [a]
  | .push _ => [7]
  | .pop r => [r, 7]
  | .call _ => [7]
  | .ret => [7]
  | .iret => [0, 1, 2, 3, 4, 5, 6, 7]
  | .hlt | .prn _ | .pra _ | .jmp _ | .st _ _ | .cmp _ _ | .jeq _ | .jne _ | .int _ => []

end Sys2Proof

namespace Sys2Proof.Machine

/-! ### What is left unchanged -/

/-- Every general register but those of `ds` is as before. -/
def SameRegsBut (ds : List Reg) (s t : State) : Prop := ∀ r : Reg, r ∉ ds → t.reg r = s.reg r

/-- Every byte of memory but those at the addresses of `as` reads as before. -/
def SameMemoryBut (as : List Nat) (s t : State) : Prop := ∀ a : Nat, a ∉ as → t.mem.read a = s.mem.read a

/-- Everything but the registers, `pc` and the memory is as before: `ir`, both flags, the run state, the fault
latches, the output history and the model's own schedule of requests. -/
def SameControl (s t : State) : Prop :=
  t.ir = s.ir ∧ t.ie = s.ie ∧ t.eq = s.eq ∧ t.run = s.run ∧ t.fcause = s.fcause ∧ t.faddr = s.faddr ∧
    t.fval = s.fval ∧ t.out = s.out ∧ t.irqIn = s.irqIn

/-! ### When a tick fetches -/

/-- The tick from `s` does a cycle that takes no interrupt, so it fetches (R101). -/
def State.Fetches (s : State) : Prop := s.run = .running ∧ s.sampleIrq.takenLine = none

/-- The tick from `s` fetches the opcode byte of instruction `m` (R104, R105). -/
def State.FetchesOp (s : State) (m : Mnemonic) : Prop :=
  s.Fetches ∧ s.pc.toNat < 256 ∧ s.mem.read s.pc.toNat = defaultOpc m

/-- The operand byte of a register. -/
def regByte (r : Reg) : Byte := BitVec.ofNat 8 r.val

/-! ### The faults every operand can raise -/

/-- An instruction `m` that does not fit below address 256 ends its cycle in MEM_RANGE at 256, whatever its operand bytes
are: the requests sampled at the boundary and the opcode in `ir` stay, nothing else changes but the run state and the
latches (R106, R171, R174). -/
def OperandBeyondMemoryFaults (m : Mnemonic) : Prop :=
  ∀ s : State, s.FetchesOp m → 256 < s.pc.toNat + m.width →
    step s = .next ((s.sampleIrq.setIr (defaultOpc m)).raise (.memRange 256))

/-- Format R, and byte 1 of format RI (R85, R106): a register byte above 7 is ILLEGAL_OPERAND at `pc + 1`. -/
def OperandFaultsR (m : Mnemonic) (mk : Byte → Instr) : Prop :=
  OperandBeyondMemoryFaults m ∧
  ∀ (b : Byte) (s : State), 8 ≤ b.toNat → exec (mk b) s = .next (s.raise (.illegalOperand (s.pc + 1) b))

/-- Format RR (R85, R106, R176): a first register byte above 7 is ILLEGAL_OPERAND at `pc + 1` whatever the second; a
second one above 7, after a first that is an index, at `pc + 2`. -/
def OperandFaultsRR (m : Mnemonic) (mk : Byte → Byte → Instr) : Prop :=
  OperandBeyondMemoryFaults m ∧
  (∀ (a b : Byte) (s : State), 8 ≤ a.toNat → exec (mk a b) s = .next (s.raise (.illegalOperand (s.pc + 1) a))) ∧
  ∀ (a : Reg) (b : Byte) (s : State), 8 ≤ b.toNat →
    exec (mk (regByte a) b) s = .next (s.raise (.illegalOperand (s.pc + 2) b))

/-! ### The invariant -/

/-- What the latches hold after a fatal condition (R170), beside the `pc`, `ir` and memory the fault left. -/
def State.FaultRecord (s : State) : Prop :=
  (s.fcause = 1 ∧ s.faddr = s.pc ∧ s.fval = zext9 s.ir) ∨
  (s.fcause = 2 ∧ s.faddr = 256 ∧ s.fval = 0) ∨
  (s.fcause = 3 ∧ (s.faddr = s.pc + 1 ∨ s.faddr = s.pc + 2) ∧ s.fval = zext9 (s.mem.read s.faddr.toNat) ∧
    7 < s.fval.toNat) ∨
  (s.fcause = 4 ∧ s.faddr = s.pc ∧ 254 ≤ s.pc.toNat ∧ s.fval = s.pc + 2)

/-- The latches are 0 until a fatal condition, and record it from then on (R36). -/
def State.LatchesMatch (s : State) : Prop :=
  (s.run = .faulted → s.FaultRecord) ∧ (s.run ≠ .faulted → s.fcause = 0 ∧ s.faddr = 0 ∧ s.fval = 0)

/-- The invariant of the machine: memory is in its canonical form, `pc` is 0 to 256 (R30), and the latches match the run
state. -/
def State.Inv (s : State) : Prop := s.mem.wf = true ∧ s.pc.toNat ≤ 256 ∧ s.LatchesMatch

end Sys2Proof.Machine
end

