-- ==== Sys2Proof/Certificates/Slice0/Obligations.lean ====
section
/-! DEFINITION. The statements for the provers, from the numbered rules of spec/. -/

open Sys2Proof Sys2Proof.Machine

/-! ## The instructions, one statement each (they hold for every operand byte) -/

/-- R109. The increment of `pc` is the spec's own decision D8. -/
def Obligations.HltStopsTheEngine : Prop :=
  encode defaultOpc .hlt = [0x1B] ∧
  ∀ s : State, ∃ t, exec .hlt s = .next t ∧ t.run = .halted ∧ t.pc = s.pc + 1 ∧
    SameRegsBut [] s t ∧ SameMemoryBut [] s t ∧ SameControl s.halt t ∧ step t = .next t

/-- R123. -/
def Obligations.LdiLoadsTheImmediate : Prop :=
  (∀ r imm, encode defaultOpc (.ldi r imm) = [0x04, r, imm]) ∧
  (∀ (r : Reg) (imm : Byte) (s : State), ∃ t, exec (.ldi (regByte r) imm) s = .next t ∧
    t.reg r = imm ∧ t.pc = s.pc + 3 ∧ SameRegsBut [r] s t ∧ SameMemoryBut [] s t ∧ SameControl s t) ∧
  ∀ imm, OperandFaultsR .ldi (.ldi · imm)

/-- R124. -/
def Obligations.AddWrapsModulo256 : Prop :=
  (∀ a b, encode defaultOpc (.add a b) = [0x0C, a, b]) ∧
  (∀ (a b : Reg) (s : State), ∃ t, exec (.add (regByte a) (regByte b)) s = .next t ∧
    (t.reg a).toNat = ((s.reg a).toNat + (s.reg b).toNat) % 256 ∧ t.pc = s.pc + 3 ∧
    SameRegsBut [a] s t ∧ SameMemoryBut [] s t ∧ SameControl s t) ∧
  OperandFaultsRR .add .add

/-- R125. -/
def Obligations.MulWrapsModulo256 : Prop :=
  (∀ a b, encode defaultOpc (.mul a b) = [0x05, a, b]) ∧
  (∀ (a b : Reg) (s : State), ∃ t, exec (.mul (regByte a) (regByte b)) s = .next t ∧
    (t.reg a).toNat = ((s.reg a).toNat * (s.reg b).toNat) % 256 ∧ t.pc = s.pc + 3 ∧
    SameRegsBut [a] s t ∧ SameMemoryBut [] s t ∧ SameControl s t) ∧
  OperandFaultsRR .mul .mul

/-- R126. -/
def Obligations.CmpWritesEqualOnly : Prop :=
  (∀ a b, encode defaultOpc (.cmp a b) = [0x16, a, b]) ∧
  (∀ (a b : Reg) (s : State), ∃ t, exec (.cmp (regByte a) (regByte b)) s = .next t ∧
    (t.eq = true ↔ s.reg a = s.reg b) ∧ t.pc = s.pc + 3 ∧
    SameRegsBut [] s t ∧ SameMemoryBut [] s t ∧ SameControl (s.setEq t.eq) t) ∧
  OperandFaultsRR .cmp .cmp

/-- R131. The fault clauses leave `out` as it was: no event is emitted. -/
def Obligations.PrnEmitsTheNumber : Prop :=
  (∀ r, encode defaultOpc (.prn r) = [0x46, r]) ∧
  (∀ (r : Reg) (s : State), ∃ t, exec (.prn (regByte r)) s = .next t ∧
    t.out = s.out ++ [⟨.dec, s.reg r⟩] ∧ t.pc = s.pc + 2 ∧
    SameRegsBut [] s t ∧ SameMemoryBut [] s t ∧ SameControl (s.emit .dec (s.reg r)) t) ∧
  OperandFaultsR .prn .prn

/-- R132. -/
def Obligations.PraEmitsTheCharacter : Prop :=
  (∀ r, encode defaultOpc (.pra r) = [0x07, r]) ∧
  (∀ (r : Reg) (s : State), ∃ t, exec (.pra (regByte r)) s = .next t ∧
    t.out = s.out ++ [⟨.chr, s.reg r⟩] ∧ t.pc = s.pc + 2 ∧
    SameRegsBut [] s t ∧ SameMemoryBut [] s t ∧ SameControl (s.emit .chr (s.reg r)) t) ∧
  OperandFaultsR .pra .pra

/-- R143, with R142 for register 7 (the spec's decision D9: the decremented value is stored). -/
def Obligations.PushStoresBelowTheStackPointer : Prop :=
  (∀ r, encode defaultOpc (.push r) = [0x0A, r]) ∧
  (∀ (r : Reg) (s : State), ∃ t, exec (.push (regByte r)) s = .next t ∧
    t.reg 7 = s.reg 7 - 1 ∧
    t.mem.read (s.reg 7 - 1).toNat = (if r = 7 then s.reg 7 - 1 else s.reg r) ∧ t.pc = s.pc + 2 ∧
    SameRegsBut [7] s t ∧ SameMemoryBut [(s.reg 7 - 1).toNat] s t ∧ SameControl s t) ∧
  OperandFaultsR .push .push

/-- R144, with R142 for register 7 (the spec's decision D9: the popped byte plus 1). -/
def Obligations.PopLoadsFromTheStackPointer : Prop :=
  (∀ r, encode defaultOpc (.pop r) = [0x0B, r]) ∧
  (∀ (r : Reg) (s : State), ∃ t, exec (.pop (regByte r)) s = .next t ∧
    (r ≠ 7 → t.reg r = s.mem.read (s.reg 7).toNat ∧ t.reg 7 = s.reg 7 + 1) ∧
    (r = 7 → t.reg 7 = s.mem.read (s.reg 7).toNat + 1) ∧ t.pc = s.pc + 2 ∧
    SameRegsBut [r, 7] s t ∧ SameMemoryBut [] s t ∧ SameControl s t) ∧
  OperandFaultsR .pop .pop

/-- R145. -/
def Obligations.StStoresAtTheFirstRegister : Prop :=
  (∀ a b, encode defaultOpc (.st a b) = [0x09, a, b]) ∧
  (∀ (a b : Reg) (s : State), ∃ t, exec (.st (regByte a) (regByte b)) s = .next t ∧
    t.mem.read (s.reg a).toNat = s.reg b ∧ t.pc = s.pc + 3 ∧
    SameRegsBut [] s t ∧ SameMemoryBut [(s.reg a).toNat] s t ∧ SameControl s t) ∧
  OperandFaultsRR .st .st

/-- R151; the target of `CALL R7` is the spec's decision D9, the fault D4. The third clause, DATA_RANGE from 254 up, is of
`exec` alone. A tick reaches it at 0xFE only, which the fourth clause says: a CALL at 0xFF is MEM_RANGE at its operand byte
(R176, in `OperandFaultsR`), and at 256 there is no fetch. -/
def Obligations.CallPushesTheReturnAddress : Prop :=
  (∀ r, encode defaultOpc (.call r) = [0x0F, r]) ∧
  (∀ (r : Reg) (s : State), s.pc.toNat + 2 < 256 → ∃ t, exec (.call (regByte r)) s = .next t ∧
    t.reg 7 = s.reg 7 - 1 ∧ (t.mem.read (s.reg 7 - 1).toNat).toNat = s.pc.toNat + 2 ∧
    t.pc.toNat = (if r = 7 then s.reg 7 - 1 else s.reg r).toNat ∧
    SameRegsBut [7] s t ∧ SameMemoryBut [(s.reg 7 - 1).toNat] s t ∧ SameControl s t) ∧
  (∀ (r : Reg) (s : State), s.pc.toNat ≤ 256 → 256 ≤ s.pc.toNat + 2 →
    exec (.call (regByte r)) s = .next (s.raise (.dataRange s.pc (s.pc + 2)))) ∧
  (∀ (r : Reg) (s : State), s.FetchesOp .call → s.pc = 0xFE → s.mem.read 0xFF = regByte r →
    step s = .next ((s.sampleIrq.setIr (defaultOpc .call)).raise (.dataRange 0xFE 0x100))) ∧
  OperandFaultsR .call .call

/-- R152. -/
def Obligations.RetPopsTheProgramCounter : Prop :=
  encode defaultOpc .ret = [0x10] ∧
  ∀ s : State, ∃ t, exec .ret s = .next t ∧
    t.pc.toNat = (s.mem.read (s.reg 7).toNat).toNat ∧ t.reg 7 = s.reg 7 + 1 ∧
    SameRegsBut [7] s t ∧ SameMemoryBut [] s t ∧ SameControl s t

/-- R153. -/
def Obligations.JmpGoesToTheRegister : Prop :=
  (∀ r, encode defaultOpc (.jmp r) = [0x11, r]) ∧
  (∀ (r : Reg) (s : State), ∃ t, exec (.jmp (regByte r)) s = .next t ∧ t.pc.toNat = (s.reg r).toNat ∧
    SameRegsBut [] s t ∧ SameMemoryBut [] s t ∧ SameControl s t) ∧
  OperandFaultsR .jmp .jmp

/-- R154. The fault clauses hold whether or not the jump would be taken. -/
def Obligations.JeqJumpsWhenEqual : Prop :=
  (∀ r, encode defaultOpc (.jeq r) = [0x13, r]) ∧
  (∀ (r : Reg) (s : State), ∃ t, exec (.jeq (regByte r)) s = .next t ∧
    (s.eq = true → t.pc.toNat = (s.reg r).toNat) ∧ (s.eq = false → t.pc = s.pc + 2) ∧
    SameRegsBut [] s t ∧ SameMemoryBut [] s t ∧ SameControl s t) ∧
  OperandFaultsR .jeq .jeq

/-- R155. -/
def Obligations.JneJumpsWhenNotEqual : Prop :=
  (∀ r, encode defaultOpc (.jne r) = [0x14, r]) ∧
  (∀ (r : Reg) (s : State), ∃ t, exec (.jne (regByte r)) s = .next t ∧
    (s.eq = false → t.pc.toNat = (s.reg r).toNat) ∧ (s.eq = true → t.pc = s.pc + 2) ∧
    SameRegsBut [] s t ∧ SameMemoryBut [] s t ∧ SameControl s t) ∧
  OperandFaultsR .jne .jne

/-- R160; the spec takes CA1's advice as its decision D7. -/
def Obligations.IntOnlyAdvances : Prop :=
  (∀ r, encode defaultOpc (.int r) = [0x19, r]) ∧
  (∀ (r : Reg) (s : State), ∃ t, exec (.int (regByte r)) s = .next t ∧ t.pc = s.pc + 2 ∧
    SameRegsBut [] s t ∧ SameMemoryBut [] s t ∧ SameControl s t) ∧
  OperandFaultsR .int .int

/-- R162: the first pop redirects the rest, which is read from the popped byte plus 1 upward. -/
def Obligations.IretRestoresFromTheStack : Prop :=
  encode defaultOpc .iret = [0x1A] ∧
  ∀ s : State, ∃ t, exec .iret s = .next t ∧
    (∀ q : Byte, q = s.mem.read (s.reg 7).toNat + 1 →
      t.reg 6 = s.mem.read q.toNat ∧ t.reg 5 = s.mem.read (q + 1).toNat ∧ t.reg 4 = s.mem.read (q + 2).toNat ∧
      t.reg 3 = s.mem.read (q + 3).toNat ∧ t.reg 2 = s.mem.read (q + 4).toNat ∧ t.reg 1 = s.mem.read (q + 5).toNat ∧
      t.reg 0 = s.mem.read (q + 6).toNat ∧ t.pc.toNat = (s.mem.read (q + 7).toNat).toNat ∧ t.reg 7 = q + 8) ∧
    t.ie = true ∧ SameMemoryBut [] s t ∧ SameControl (s.setIe true) t

/-! ## The encoding -/

/-- A few words written out from R88 and R81, under the default opcode map (the spec's decision D6). -/
def Obligations.SampleBytesDecode : Prop :=
  decode defaultOpc [0x04, 0x00, 0x08] = .ok (.ldi 0 8, []) ∧
  decode defaultOpc [0x0C, 0x03, 0x04, 0x1B] = .ok (.add 3 4, [0x1B]) ∧
  decode defaultOpc [0x46, 0x07] = .ok (.prn 7, []) ∧
  decode defaultOpc [0x0B, 0x02] = .ok (.pop 2, []) ∧
  decode defaultOpc [0x09, 0x02, 0x00] = .ok (.st 2 0, []) ∧
  decode defaultOpc [0x13, 0x03] = .ok (.jeq 3, []) ∧
  decode defaultOpc [0x1A] = .ok (.iret, []) ∧
  decode defaultOpc [0x1B] = .ok (.hlt, []) ∧
  decode defaultOpc [0xFF, 0x00] = .error (.invalidOpcode 0xFF)

/-- R89, of the default map. -/
def Obligations.DefaultOpcodeMapIsValid : Prop := OpcodeMap.Valid defaultOpc

/-- R87, R90: a byte has a handler exactly if it is an opcode, under every map R89 accepts; the default table has 17 of
256; 0xFF never has one. -/
def Obligations.DispatchTableFollowsTheMap : Prop :=
  (∀ opc : OpcodeMap, opc.Valid → ∀ (op : Byte) (m : Mnemonic), lookup opc op = some m ↔ opc m = op) ∧
  (∀ opc : OpcodeMap, opc.Valid → lookup opc 0xFF = none) ∧
  ((List.range 256).filter fun n => (lookup defaultOpc (BitVec.ofNat 8 n)).isSome).length = 17

/-- Decoding the bytes of an instruction gives it back, under every opcode map R89 accepts, whatever bytes follow and
whatever its operand bytes are. -/
def Obligations.DecodeInvertsEncode : Prop :=
  ∀ opc : OpcodeMap, opc.Valid → ∀ (i : Instr) (rest : List Byte), decode opc (encode opc i ++ rest) = .ok (i, rest)

/-- The other direction: bytes that decode to an instruction are its bytes, as many as its width, then the rest. -/
def Obligations.EncodeInvertsDecode : Prop :=
  ∀ (opc : OpcodeMap) (bytes rest : List Byte) (i : Instr), decode opc bytes = .ok (i, rest) →
    encode opc i ++ rest = bytes ∧ (encode opc i).length = i.mnemonic.width

/-! ## The cycle -/

/-- A tick that takes no interrupt, at bytes that decode to an instruction, is the execution of that instruction at the
state with the requests of the boundary sampled and the opcode byte in `ir` (R101, R104, R106). The instruction need not be
well formed: with a register operand byte above 7, `exec` raises ILLEGAL_OPERAND. -/
def Obligations.StepRunsTheDecodedInstruction : Prop :=
  ∀ (s : State) (i : Instr) (rest : List Byte), s.Fetches → decode defaultOpc s.window = .ok (i, rest) →
    step s = exec i (s.sampleIrq.setIr (s.mem.read s.pc.toNat))

/-- The window of a state is the bytes at `pc`, `pc + 1` and `pc + 2`, as far as the memory goes (R50, R86). -/
def Obligations.WindowReadsAtTheProgramCounter : Prop :=
  ∀ (s : State) (k : Nat), s.window[k]? =
    if k < 3 ∧ s.pc.toNat + k < 256 then some (s.mem.read (s.pc.toNat + k)) else none

/-- No number of ticks changes a stopped engine. R110 says that it takes no cycle, keeps its registers, flags and memory,
and ignores requests; that such a tick answers the same state, without end, and that the requests still scheduled stay
in `irqIn`, is the model's (log entry 2, DEDUCED). -/
def Obligations.StoppedEngineIgnoresTicks : Prop :=
  ∀ (n : Nat) (s : State), s.run ≠ .running → Host.Core.run core n s = .next s

/-- R104: the fetch writes the byte at `pc` to `ir`; at 256 it is MEM_RANGE and `ir` is not written. -/
def Obligations.FetchWritesInstructionRegister : Prop :=
  (∀ s t : State, s.Fetches → s.pc.toNat < 256 → step s = .next t → t.ir = s.mem.read s.pc.toNat) ∧
  ∀ s : State, s.Fetches → s.pc = 256 → step s = .next (s.sampleIrq.raise (.memRange 256))

/-- R105, R172: a byte without a handler. The state left is the one at the start of the cycle but for `ir`, the run state
and the latches. -/
def Obligations.InvalidOpcodeFaults : Prop :=
  ∀ (opc : OpcodeMap) (s : State), s.Fetches → s.pc.toNat < 256 → lookup opc (s.mem.read s.pc.toNat) = none →
    ∃ t, tick opc s = .next t ∧ t.run = .faulted ∧ t.fcause = 1 ∧ t.faddr = s.pc ∧
      t.fval.toNat = (s.mem.read s.pc.toNat).toNat ∧ t.ir = s.mem.read s.pc.toNat ∧ t.pc = s.pc ∧
      SameRegsBut [] s.sampleIrq t ∧ SameMemoryBut [] s t ∧ t.ie = s.ie ∧ t.eq = s.eq ∧ t.out = s.out

/-- Every tick has a next state, and so has every number of ticks: the engine never stops without an answer (R108,
R241). That a fatal condition is a next state is the model's choice (log entry 1). -/
def Obligations.EveryTickAnswersNext : Prop :=
  (∀ (opc : OpcodeMap) (s : State), ∃ t, tick opc s = .next t) ∧
  ∀ (n : Nat) (s : State), ∃ t, Host.Core.run core n s = .next t

/-! ## Memory and registers -/

/-- R52. -/
def Obligations.MemReadChecksTheRange : Prop :=
  ∀ (s : State) (a : Nat), (256 ≤ a → memRead s a = .error (.memRange (BitVec.ofNat 9 a))) ∧
    (a < 256 → memRead s a = .ok (s.mem.read a))

/-- R53 (that the engine's own writes are at bytes, where the fault cannot come, is an inference of the spec's). -/
def Obligations.MemWriteChangesOneByte : Prop :=
  ∀ (s : State) (a : Nat) (v : Byte), (256 ≤ a → memWrite s a v = .error (.memRange (BitVec.ofNat 9 a))) ∧
    (a < 256 → ∃ t, memWrite s a v = .ok t ∧ t.mem.read a = v ∧ SameMemoryBut [a] s t ∧ SameRegsBut [] s t ∧
      t.pc = s.pc ∧ SameControl s t)

/-- R20: all 8 registers hold what was written to them, and a write changes no other. -/
def Obligations.RegistersHoldWhatIsWritten : Prop :=
  ∀ (s : State) (r : Reg) (v : Byte), (s.setReg r v).reg r = v ∧ SameRegsBut [r] s (s.setReg r v) ∧
    (s.setReg r v).mem = s.mem ∧ (s.setReg r v).pc = s.pc ∧ SameControl s (s.setReg r v)

/-- R140: the pointer goes down modulo 256, then the byte is written there. -/
def Obligations.PushWrapsAndWrites : Prop :=
  ∀ (s : State) (v : Byte), ((s.push v).reg 7).toNat = ((s.reg 7).toNat + 255) % 256 ∧
    (s.push v).mem.read ((s.push v).reg 7).toNat = v ∧ SameMemoryBut [((s.push v).reg 7).toNat] s (s.push v) ∧
    SameRegsBut [7] s (s.push v) ∧ (s.push v).pc = s.pc ∧ SameControl s (s.push v)

/-- R23's table of the registers an instruction writes: no other register changes. -/
def Obligations.InstructionsWriteOnlyTheirRegisters : Prop :=
  ∀ (i : Instr) (s t : State) (r : Reg), i.WellFormed → exec i s = .next t → regByte r ∉ i.writes →
    t.reg r = s.reg r

/-- R54: memory changes only at an interrupt entry, in the nine bytes below the stack pointer, and by PUSH, CALL and ST,
at the byte below the stack pointer or at the first register's value. -/
def Obligations.OnlyStoresChangeMemory : Prop :=
  ∀ (s t : State) (x : Nat), step s = .next t → t.mem.read x ≠ s.mem.read x →
    (s.run = .running ∧ (∃ i, s.sampleIrq.takenLine = some i) ∧
      ∃ k : Nat, k < 9 ∧ x = (s.reg 7 - 1 - BitVec.ofNat 8 k).toNat) ∨
    ((s.FetchesOp .push ∨ s.FetchesOp .call) ∧ x = (s.reg 7 - 1).toNat) ∨
    (s.FetchesOp .st ∧ ∃ a : Reg, s.mem.read (s.pc.toNat + 1) = regByte a ∧ x = (s.sampleIrq.reg a).toNat)

/-- R65: what ST, PUSH or CALL wrote is what the next cycle's fetch sees, opcode byte and operand bytes alike. -/
def Obligations.StoresAreFetchedNext : Prop :=
  (∀ (a b : Reg) (s t : State) (k : Nat), exec (.st (regByte a) (regByte b)) s = .next t → k < 3 →
    t.pc.toNat + k = (s.reg a).toNat → t.window[k]? = some (s.reg b)) ∧
  (∀ (r : Reg) (s t : State) (k : Nat), r ≠ 7 → exec (.push (regByte r)) s = .next t → k < 3 →
    t.pc.toNat + k = (t.reg 7).toNat → t.window[k]? = some (s.reg r)) ∧
  ∀ (r : Reg) (s t : State) (k : Nat), s.pc.toNat + 2 < 256 → exec (.call (regByte r)) s = .next t → k < 3 →
    t.pc.toNat + k = (t.reg 7).toNat → t.window[k]? = some (BitVec.ofNat 8 (s.pc.toNat + 2))

/-- R146, with its clauses for register 7, which the spec derives from R142. -/
def Obligations.PushThenPopRoundTrips : Prop :=
  ∀ (src dst : Reg) (s : State), ∃ t u, exec (.push (regByte src)) s = .next t ∧
    exec (.pop (regByte dst)) t = .next u ∧
    (dst ≠ 7 → u.reg dst = (if src = 7 then s.reg 7 - 1 else s.reg src) ∧ u.reg 7 = s.reg 7) ∧
    (dst = 7 → u.reg 7 = (if src = 7 then s.reg 7 - 1 else s.reg src) + 1) ∧
    SameRegsBut [dst, 7] s u

/-- R152's sentence: a CALL and then a RET, with nothing between, go on behind the CALL with the stack pointer back. -/
def Obligations.CallThenRetReturns : Prop :=
  ∀ (r : Reg) (s : State), s.pc.toNat + 2 < 256 → ∃ t u, exec (.call (regByte r)) s = .next t ∧
    exec .ret t = .next u ∧ u.pc = s.pc + 2 ∧ SameRegsBut [] s u

/-! ## Flags, run state and output: who writes them -/

/-- R32: only CMP writes `equal`. -/
def Obligations.OnlyCmpWritesEqual : Prop :=
  ∀ s t : State, step s = .next t → t.eq ≠ s.eq → s.FetchesOp .cmp

/-- R33: `interruptsEnabled` is cleared only by interrupt entry and set only by IRET. -/
def Obligations.OnlyEntryAndIretWriteInterruptsEnabled : Prop :=
  ∀ s t : State, step s = .next t → t.ie ≠ s.ie →
    (s.ie = true ∧ s.run = .running ∧ ∃ i, s.sampleIrq.takenLine = some i) ∨ (s.ie = false ∧ s.FetchesOp .iret)

/-- R32, R33, R31: no instruction reads `ir`; none reads `ie` (IRET sets it whatever it was); only JEQ and JNE read
`eq`, which CMP sets whatever it was. Two runs that differ only there go on differing only there. -/
def Obligations.InstructionsDoNotReadHiddenState : Prop :=
  ∀ (i : Instr) (s t : State), exec i s = .next t →
    (∀ b, exec i (s.setIr b) = .next (t.setIr b)) ∧
    (∀ b, exec i (s.setIe b) = .next (if i = .iret then t else t.setIe b)) ∧
    (i.mnemonic ≠ .jeq → i.mnemonic ≠ .jne → i.mnemonic ≠ .cmp → ∀ b, exec i (s.setEq b) = .next (t.setEq b)) ∧
    (i.mnemonic = .cmp → i.WellFormed → ∀ b, exec i (s.setEq b) = .next t)

/-- R31: `ir` is written by a fetch and by nothing else. -/
def Obligations.OnlyFetchWritesInstructionRegister : Prop :=
  ∀ s t : State, step s = .next t → ¬ (s.Fetches ∧ s.pc.toNat < 256) → t.ir = s.ir

/-- R35: a running engine halts only by HLT. -/
def Obligations.OnlyHltHalts : Prop :=
  ∀ s t : State, step s = .next t → s.run ≠ .halted → t.run = .halted → s.FetchesOp .hlt ∧ t.pc = s.pc + 1

/-- R133, R37: a tick leaves the output history as it is, or is a PRN or PRA and adds its one event at the end. -/
def Obligations.OnlyPrnAndPraEmit : Prop :=
  ∀ s t : State, step s = .next t →
    t.out = s.out ∨
    (∃ r : Reg, s.FetchesOp .prn ∧ s.mem.read (s.pc.toNat + 1) = regByte r ∧
      t.out = s.out ++ [⟨.dec, s.sampleIrq.reg r⟩]) ∨
    (∃ r : Reg, s.FetchesOp .pra ∧ s.mem.read (s.pc.toNat + 1) = regByte r ∧
      t.out = s.out ++ [⟨.chr, s.sampleIrq.reg r⟩])

/-! ## Fatal conditions -/

/-- R170, R174: the codes and what the latches record; `raise` changes nothing but the run state and the latches. -/
def Obligations.RaiseWritesTheLatches : Prop :=
  (∀ f : Fault, ∀ s : State, (s.raise f).run = .faulted ∧ SameRegsBut [] s (s.raise f) ∧ (s.raise f).pc = s.pc ∧
    (s.raise f).mem = s.mem ∧ (s.raise f).ir = s.ir ∧ (s.raise f).ie = s.ie ∧ (s.raise f).eq = s.eq ∧
    (s.raise f).out = s.out) ∧
  (∀ (s : State) (a : Pc) (op : Byte), (s.raise (.invalidOpcode a op)).fcause = 1 ∧
    (s.raise (.invalidOpcode a op)).faddr = a ∧ (s.raise (.invalidOpcode a op)).fval.toNat = op.toNat) ∧
  (∀ (s : State) (a : Pc), (s.raise (.memRange a)).fcause = 2 ∧ (s.raise (.memRange a)).faddr = a ∧
    (s.raise (.memRange a)).fval = 0) ∧
  (∀ (s : State) (a : Pc) (b : Byte), (s.raise (.illegalOperand a b)).fcause = 3 ∧
    (s.raise (.illegalOperand a b)).faddr = a ∧ (s.raise (.illegalOperand a b)).fval.toNat = b.toNat) ∧
  ∀ (s : State) (p ret : Pc), (s.raise (.dataRange p ret)).fcause = 4 ∧ (s.raise (.dataRange p ret)).faddr = p ∧
    (s.raise (.dataRange p ret)).fval = ret

/-- R174: a cycle that faults leaves every register, flag, `pc`, memory byte and the output as they stood when it
started (with the requests of its boundary sampled); `ir` keeps the byte of a successful fetch. -/
def Obligations.FaultsArePrecise : Prop :=
  ∀ s t : State, step s = .next t → s.run = .running → t.run = .faulted →
    SameRegsBut [] s.sampleIrq t ∧ t.pc = s.pc ∧ t.mem = s.mem ∧ t.ie = s.ie ∧ t.eq = s.eq ∧ t.out = s.out ∧
    (s.Fetches ∧ s.pc.toNat < 256 → t.ir = s.mem.read s.pc.toNat) ∧
    (¬ (s.Fetches ∧ s.pc.toNat < 256) → t.ir = s.ir) ∧
    (s.pc.toNat ≤ 256 → t.FaultRecord)

/-- R175, R85: every instruction with a register operand byte above 7 raises ILLEGAL_OPERAND, naming the byte and its
address, and so does the tick that fetches it; no instruction without one does. -/
def Obligations.IllegalOperandsFaultEverywhere : Prop :=
  (∀ (i : Instr) (s : State), ¬ i.WellFormed → ∃ (k : Nat) (b : Byte), (k = 1 ∨ k = 2) ∧
    i.operands[k - 1]? = some b ∧ 7 < b.toNat ∧
    exec i s = .next (s.raise (.illegalOperand (s.pc + BitVec.ofNat 9 k) b))) ∧
  (∀ (s : State) (i : Instr) (rest : List Byte), s.Fetches → decode defaultOpc s.window = .ok (i, rest) →
    ¬ i.WellFormed → ∃ k : Nat, (k = 1 ∨ k = 2) ∧ 7 < (s.mem.read (s.pc.toNat + k)).toNat ∧
      step s = .next ((s.sampleIrq.setIr (s.mem.read s.pc.toNat)).raise
        (.illegalOperand (s.pc + BitVec.ofNat 9 k) (s.mem.read (s.pc.toNat + k))))) ∧
  ∀ (i : Instr) (s t : State), i.WellFormed → s.run = .running → exec i s = .next t → t.run = .faulted →
    i.mnemonic = .call ∧ t.fcause = 4 ∧ 254 ≤ s.pc.toNat

/-! ## Interrupts -/

/-- R184: with `ie = 1` the least line that is pending and unmasked is taken; with `ie = 0` or no such line the cycle
goes on to fetch. -/
def Obligations.LowestPendingLineIsTaken : Prop :=
  (∀ (s : State) (i : Line), s.run = .running → s.ie = true →
    (s.sampleIrq.reg 6 &&& s.sampleIrq.reg 5).getLsbD i.val = true →
    (∀ j : Line, j < i → (s.sampleIrq.reg 6 &&& s.sampleIrq.reg 5).getLsbD j.val = false) →
    step s = interruptEntry i s.sampleIrq) ∧
  ∀ s : State, s.run = .running → (s.ie = false ∨ s.sampleIrq.reg 6 &&& s.sampleIrq.reg 5 = 0) →
    step s = fetchExecute defaultOpc s.sampleIrq

/-- R186: interrupt entry, with the frame of R163's table; the handler's address is read after the pushes. The return
address is a byte here; else the entry is DATA_RANGE before any change (R189). -/
def Obligations.InterruptEntrySavesTheFrame : Prop :=
  (∀ (i : Line) (s : State), s.pc.toNat + 2 < 256 → ∃ t, interruptEntry i s = .next t ∧
    t.ie = false ∧ t.reg 6 = s.reg 6 &&& ~~~ (1#8 <<< i.val) ∧ t.reg 7 = s.reg 7 - 9 ∧ SameRegsBut [6, 7] s t ∧
    (t.mem.read (s.reg 7 - 1).toNat).toNat = s.pc.toNat + 2 ∧
    t.mem.read (s.reg 7 - 2).toNat = s.reg 0 ∧ t.mem.read (s.reg 7 - 3).toNat = s.reg 1 ∧
    t.mem.read (s.reg 7 - 4).toNat = s.reg 2 ∧ t.mem.read (s.reg 7 - 5).toNat = s.reg 3 ∧
    t.mem.read (s.reg 7 - 6).toNat = s.reg 4 ∧ t.mem.read (s.reg 7 - 7).toNat = s.reg 5 ∧
    t.mem.read (s.reg 7 - 8).toNat = t.reg 6 ∧ t.mem.read (s.reg 7 - 9).toNat = s.reg 7 - 9 ∧
    SameMemoryBut ((List.range 9).map fun k => (s.reg 7 - 1 - BitVec.ofNat 8 k).toNat) s t ∧
    t.pc.toNat = (t.mem.read (0xF8 + i.val)).toNat ∧ SameControl (s.setIe false) t) ∧
  ∀ (i : Line) (s : State), s.pc.toNat ≤ 256 → 256 ≤ s.pc.toNat + 2 →
    interruptEntry i s = .next (s.raise (.dataRange s.pc (s.pc + 2)))

/-- R163 (the spec's inference from R142, R162 and R186): an IRET that finds the frame of an entry unchanged gives back
registers 0 to 5 and 7, register 6 less the line's bit, `ie`, and `pc + 2`; `eq` is not part of it (R232). -/
def Obligations.IretUndoesInterruptEntry : Prop :=
  ∀ (i : Line) (s t u : State), s.pc.toNat + 2 < 256 → interruptEntry i s = .next t →
    u.reg 7 = s.reg 7 - 9 →
    (∀ k : Nat, k < 9 → u.mem.read (s.reg 7 - 1 - BitVec.ofNat 8 k).toNat =
      t.mem.read (s.reg 7 - 1 - BitVec.ofNat 8 k).toNat) →
    ∃ v, exec .iret u = .next v ∧ SameRegsBut [6] s v ∧ v.reg 6 = s.reg 6 &&& ~~~ (1#8 <<< i.val) ∧
      v.pc = s.pc + 2 ∧ v.ie = true ∧ v.eq = u.eq ∧ SameMemoryBut [] u v

/-- R181: a boundary's requests are ORed into IS and nothing else changes but the model's own schedule; a running tick
samples them once, before its interrupt check. -/
def Obligations.RequestsOnlySetPendingBits : Prop :=
  (∀ s : State, s.run = .running → step s = cycle defaultOpc s.sampleIrq) ∧
  (∀ s : State, s.irqIn = [] → s.sampleIrq = s) ∧
  ∀ (s : State) (bits : Byte) (later : List Byte), s.irqIn = bits :: later →
    s.sampleIrq.reg 6 = s.reg 6 ||| bits ∧ s.sampleIrq.irqIn = later ∧ SameRegsBut [6] s s.sampleIrq ∧
    s.sampleIrq.mem = s.mem ∧ s.sampleIrq.pc = s.pc ∧ SameControl { s with irqIn := later } s.sampleIrq

/-- R242's first sentence: a request on an unmasked line, with `ie = 1`, makes that very tick an interrupt entry, for that
line or for one of higher priority. -/
def Obligations.RequestIsTakenAtOnce : Prop :=
  ∀ (s : State) (bits : Byte) (later : List Byte) (i : Line), s.run = .running → s.ie = true →
    s.irqIn = bits :: later → bits.getLsbD i.val = true → (s.reg 5).getLsbD i.val = true →
    ∃ j : Line, j ≤ i ∧ step s = interruptEntry j s.sampleIrq

/-- R182: the timer's request sets the pending bit of its line, whichever line that is, and nothing else. TIMER_LINE is an
argument, and line 0 where none is given (R5). -/
def Obligations.TimerSetsItsLineOnly : Prop :=
  (∀ (s : State) (line : Line), (∀ i : Line, ((s.timerRequest line).reg 6).getLsbD i.val =
      ((s.reg 6).getLsbD i.val || decide (i = line))) ∧
    SameRegsBut [6] s (s.timerRequest line) ∧ (s.timerRequest line).mem = s.mem ∧
    (s.timerRequest line).pc = s.pc ∧ SameControl s (s.timerRequest line)) ∧
  ∀ s : State, s.timerRequest.reg 6 = s.reg 6 ||| 1

/-- R161 (the spec's inference): writing register 6 raises an interrupt; with no request from outside, the tick after
`LDI R6, v` takes the least line set in `v` and in IM. -/
def Obligations.WritingStatusRaisesAnInterrupt : Prop :=
  ∀ (v : Byte) (s t : State) (i : Line), s.run = .running → s.ie = true → s.irqIn = [] →
    exec (.ldi 6 v) s = .next t → (v &&& s.reg 5).getLsbD i.val = true →
    (∀ j : Line, j < i → (v &&& s.reg 5).getLsbD j.val = false) → step t = interruptEntry i t

/-! ## Reset -/

/-- R39: reset gives, from every state, the values of R39's table and leaves the memory alone. -/
def Obligations.ResetGivesTheTable : Prop :=
  ∀ s : State, (∀ r : Reg, r ≠ 7 → s.applyReset.reg r = 0) ∧ s.applyReset.reg 7 = 0xF8 ∧ s.applyReset.pc = 0 ∧
    s.applyReset.ir = 0 ∧ s.applyReset.ie = true ∧ s.applyReset.eq = false ∧ s.applyReset.run = .running ∧
    s.applyReset.fcause = 0 ∧ s.applyReset.faddr = 0 ∧ s.applyReset.fval = 0 ∧ s.applyReset.out = [] ∧
    s.applyReset.mem = s.mem

/-- What reset leaves of a state that lists no memory and has no request scheduled is `State.reset`, the model's first
state. That this one lists nothing (log entry 5), has no request (log entry 3), and that reset keeps the schedule (log entry
10) are the model's choices. -/
def Obligations.ResetStateIsWhatResetLeaves : Prop :=
  State.reset.applyReset = State.reset ∧
  ∀ s : State, s.mem = [] → s.irqIn = [] → s.applyReset = State.reset

/-- R220's last sentence, R223: whatever the memory and the requests, the first tick after reset fetches at address 0. -/
def Obligations.FirstTickFetchesAtZero : Prop :=
  ∀ s : State, s.applyReset.Fetches ∧ s.applyReset.window[0]? = some (s.mem.read 0)

/-- R55, R63: a loaded image lies from address 0 up, and no byte beyond it changes. -/
def Obligations.LoadedImageLiesFromZero : Prop :=
  ∀ (s : State) (image : List Byte) (a : Nat), a < 256 →
    (s.loadImage image).mem.read a = (image[a]?).getD (s.mem.read a)

/-! ## The invariant -/

/-- The invariant holds at reset. -/
def Obligations.ResetMeetsTheInvariant : Prop := State.reset.Inv

/-- Every step keeps the invariant: memory stays in its canonical form, `pc` stays at most 256 (R30), and the latches hold
0 until a fault and what R170 says from then on. -/
def Obligations.EveryStepKeepsTheInvariant : Prop :=
  ∀ s t : State, s.Inv → step s = .next t → t.Inv
end

