-- ==== Sys2Proof/Laws/Decode.lean ====
section
/-! SUPPORT. The dispatch table and the decoder, said once. -/

namespace Sys2Proof

theorem Mnemonic.mem_all (m : Mnemonic) : m ∈ Mnemonic.all := by
  cases m <;> decide

/-- A handler of an opcode byte is one whose opcode that byte is. -/
theorem lookup_some {opc : OpcodeMap} {op : Byte} {m : Mnemonic} (h : lookup opc op = some m) : opc m = op := by
  simpa using List.find?_some h

/-- A byte without a handler is no instruction's opcode. -/
theorem lookup_none {opc : OpcodeMap} {op : Byte} (h : lookup opc op = none) (m : Mnemonic) : opc m ≠ op := by
  simpa using List.find?_eq_none.mp h m (Mnemonic.mem_all m)

/-- Format R, inverted. -/
theorem formatR_ok {mk : Byte → Instr} {op : Byte} {bs rest : List Byte} {i : Instr}
    (h : formatR mk op bs = .ok (i, rest)) : ∃ r, bs = r :: rest ∧ i = mk r := by
  cases bs with
  | nil => simp [formatR] at h
  | cons r bs => simp [formatR] at h; exact ⟨r, by rw [h.2], h.1.symm⟩

/-- Format RR, inverted. -/
theorem formatRR_ok {mk : Byte → Byte → Instr} {op : Byte} {bs rest : List Byte} {i : Instr}
    (h : formatRR mk op bs = .ok (i, rest)) : ∃ a b, bs = a :: b :: rest ∧ i = mk a b := by
  match bs with
  | [] => simp [formatRR] at h
  | [_] => simp [formatRR] at h
  | a :: b :: bs => simp [formatRR] at h; exact ⟨a, b, by rw [h.2], h.1.symm⟩

/-- What the operand bytes of a named instruction decode to: that instruction, and exactly its width is taken (R93). -/
theorem decodeOperands_ok {m : Mnemonic} {op : Byte} {bs rest : List Byte} {i : Instr}
    (h : decodeOperands m op bs = .ok (i, rest)) : i.mnemonic = m ∧ bs = i.operands ++ rest := by
  cases m <;> simp only [decodeOperands, formatZ, Except.ok.injEq, Prod.mk.injEq] at h
  case hlt => obtain ⟨rfl, rfl⟩ := h; exact ⟨rfl, rfl⟩
  case ret => obtain ⟨rfl, rfl⟩ := h; exact ⟨rfl, rfl⟩
  case iret => obtain ⟨rfl, rfl⟩ := h; exact ⟨rfl, rfl⟩
  case prn => obtain ⟨_, rfl, rfl⟩ := formatR_ok h; exact ⟨rfl, rfl⟩
  case pra => obtain ⟨_, rfl, rfl⟩ := formatR_ok h; exact ⟨rfl, rfl⟩
  case push => obtain ⟨_, rfl, rfl⟩ := formatR_ok h; exact ⟨rfl, rfl⟩
  case pop => obtain ⟨_, rfl, rfl⟩ := formatR_ok h; exact ⟨rfl, rfl⟩
  case call => obtain ⟨_, rfl, rfl⟩ := formatR_ok h; exact ⟨rfl, rfl⟩
  case jmp => obtain ⟨_, rfl, rfl⟩ := formatR_ok h; exact ⟨rfl, rfl⟩
  case jeq => obtain ⟨_, rfl, rfl⟩ := formatR_ok h; exact ⟨rfl, rfl⟩
  case jne => obtain ⟨_, rfl, rfl⟩ := formatR_ok h; exact ⟨rfl, rfl⟩
  case int => obtain ⟨_, rfl, rfl⟩ := formatR_ok h; exact ⟨rfl, rfl⟩
  case ldi => obtain ⟨_, _, rfl, rfl⟩ := formatRR_ok h; exact ⟨rfl, rfl⟩
  case add => obtain ⟨_, _, rfl, rfl⟩ := formatRR_ok h; exact ⟨rfl, rfl⟩
  case mul => obtain ⟨_, _, rfl, rfl⟩ := formatRR_ok h; exact ⟨rfl, rfl⟩
  case st => obtain ⟨_, _, rfl, rfl⟩ := formatRR_ok h; exact ⟨rfl, rfl⟩
  case cmp => obtain ⟨_, _, rfl, rfl⟩ := formatRR_ok h; exact ⟨rfl, rfl⟩

/-- Format R, when it fails: its operand byte is not there. -/
theorem formatR_error {mk : Byte → Instr} {op : Byte} {bs : List Byte} {e : DecodeError}
    (h : formatR mk op bs = .error e) : e = .missingOperand op (bs.length + 1) := by
  cases bs with
  | nil => simp [formatR] at h; simp [h]
  | cons r bs => simp [formatR] at h

/-- Format RR, when it fails: its first or its second operand byte is not there. -/
theorem formatRR_error {mk : Byte → Byte → Instr} {op : Byte} {bs : List Byte} {e : DecodeError}
    (h : formatRR mk op bs = .error e) : e = .missingOperand op (bs.length + 1) := by
  match bs with
  | [] => simp [formatRR] at h; simp [h]
  | [_] => simp [formatRR] at h; simp [h]
  | a :: b :: bs => simp [formatRR] at h

/-- Operand bytes fail to decode only where one lies beyond the bytes: the first one that does is named (R176). -/
theorem decodeOperands_error {m : Mnemonic} {op : Byte} {bs : List Byte} {e : DecodeError}
    (h : decodeOperands m op bs = .error e) :
    e = .missingOperand op (bs.length + 1) ∧ bs.length + 1 < m.width := by
  have hlen : bs.length + 1 < m.width := by
    by_contra hc
    cases m <;> simp only [Mnemonic.width] at hc <;>
      rcases bs with _ | ⟨b0, _ | ⟨b1, bs⟩⟩ <;>
      simp [decodeOperands, formatZ, formatR, formatRR] at h hc
  refine ⟨?_, hlen⟩
  cases m <;> simp only [decodeOperands, formatZ] at h <;>
    first
    | exact formatR_error h
    | exact formatRR_error h
    | cases h

/-- What bytes decode to an instruction: its opcode byte and its operand bytes, in front of the rest. -/
theorem decode_ok {opc : OpcodeMap} {bs rest : List Byte} {i : Instr} (h : decode opc bs = .ok (i, rest)) :
    ∃ op bs', bs = op :: bs' ∧ opc i.mnemonic = op ∧ bs' = i.operands ++ rest := by
  cases bs with
  | nil => simp [decode] at h
  | cons op bs =>
    simp only [decode] at h
    split at h
    · cases h
    · obtain ⟨rfl, hb⟩ := decodeOperands_ok h
      exact ⟨op, bs, rfl, lookup_some ‹_›, hb⟩

/-- Why bytes do not decode (R104 to R106). -/
theorem decode_error {opc : OpcodeMap} {bs : List Byte} {e : DecodeError} (h : decode opc bs = .error e) :
    (bs = [] ∧ e = .noOpcode) ∨
    (∃ op bs', bs = op :: bs' ∧ lookup opc op = none ∧ e = .invalidOpcode op) ∨
    (∃ op bs' m, bs = op :: bs' ∧ lookup opc op = some m ∧ e = .missingOperand op bs.length ∧ bs.length < m.width) := by
  cases bs with
  | nil => simp [decode] at h; exact .inl ⟨rfl, h.symm⟩
  | cons op bs =>
    simp only [decode] at h
    split at h
    · cases h; exact .inr (.inl ⟨op, bs, rfl, ‹_›, rfl⟩)
    · obtain ⟨he, hl⟩ := decodeOperands_error h
      exact .inr (.inr ⟨op, bs, _, rfl, ‹_›, by simpa using he, by simpa using hl⟩)

end Sys2Proof
end

