-- ==== Sys2Proof/Laws/Memory.lean ====
section
/-! SUPPORT. Memory: a read after a write, and that every memory operation keeps the canonical form. -/

namespace Sys2Proof.Machine

/-! ### Read after write -/

theorem Memory.erase_cons (c : Host.Cell) (m : Memory) (a : Nat) :
    Memory.erase (c :: m) a = if c.1 = a then m.erase a else c :: m.erase a := by
  by_cases h : c.1 = a <;> simp [Memory.erase, h]

theorem Memory.read_erase (m : Memory) (a b : Nat) :
    (m.erase a).read b = if b = a then Memory.unlisted b else m.read b := by
  induction m with
  | nil => simp [Memory.erase, Memory.read]
  | cons c m ih =>
    rw [Memory.erase_cons]
    by_cases hk : c.1 = a
    · by_cases hb : b = a
      · subst hb; rw [if_pos hk, if_pos rfl]; simpa using ih
      · simp [hk, ih, Memory.read, hb, Ne.symm hb]
    · by_cases hb : c.1 = b
      · simp [Memory.read, hb, hb ▸ hk]
      · simp [Memory.read, hk, hb, ih]

theorem Memory.read_insert_other (m : Memory) (a b : Nat) (v : Byte) (h : b ≠ a) :
    (m.insert a v).read b = m.read b := by
  induction m with
  | nil => simp [Memory.insert, Memory.read, Ne.symm h]
  | cons c m ih => by_cases hk : a < c.1 <;> simp [Memory.insert, Memory.read, hk, Ne.symm h, ih]

theorem Memory.read_insert_same (m : Memory) (a : Nat) (v : Byte) (h : ∀ c ∈ m, c.1 ≠ a) :
    (m.insert a v).read a = v := by
  induction m with
  | nil => simp [Memory.insert, Memory.read]
  | cons c m ih =>
    obtain ⟨hc, hm⟩ := List.forall_mem_cons.mp h
    by_cases hk : a < c.1 <;> simp [Memory.insert, Memory.read, hk, hc, ih hm]

theorem Memory.mem_erase_ne (m : Memory) (a : Nat) : ∀ c ∈ m.erase a, c.1 ≠ a := by
  intro c hc
  simpa using (List.mem_filter.mp hc).2

/-- The byte at any address after a write (R53, R61). -/
@[simp] theorem Memory.read_write (m : Memory) (a b : Nat) (v : Byte) :
    (m.write a v).read b = if b = a then v else m.read b := by
  unfold Memory.write
  by_cases hv : v = Memory.unlisted a <;> by_cases hb : b = a
  · simp [hv, hb, Memory.read_erase]
  · simp [hv, hb, Memory.read_erase]
  · subst hb
    simp [hv, Memory.read_insert_same _ _ _ (Memory.mem_erase_ne m b)]
  · simp [hv, hb, Memory.read_insert_other, Memory.read_erase]

/-! ### The canonical form is kept -/

theorem Memory.wfFrom_mono {m : Memory} {lo hi : Nat} (h : lo ≤ hi) (hm : Memory.wfFrom hi m = true) :
    Memory.wfFrom lo m = true := by
  cases m with
  | nil => rfl
  | cons c m =>
    simp only [Memory.wfFrom, Bool.and_eq_true, decide_eq_true_eq] at hm ⊢
    exact ⟨⟨⟨by omega, hm.1.1.2⟩, hm.1.2⟩, hm.2⟩

theorem Memory.wfFrom_erase {m : Memory} {lo : Nat} (a : Nat) (hm : Memory.wfFrom lo m = true) :
    Memory.wfFrom lo (m.erase a) = true := by
  induction m generalizing lo with
  | nil => rfl
  | cons c m ih =>
    simp only [Memory.wfFrom, Bool.and_eq_true, decide_eq_true_eq] at hm
    rw [Memory.erase_cons]
    split
    · exact Memory.wfFrom_mono (by omega) (ih hm.2)
    · simp only [Memory.wfFrom, Bool.and_eq_true, decide_eq_true_eq]
      exact ⟨hm.1, ih hm.2⟩

theorem Memory.wfFrom_insert {m : Memory} {lo a : Nat} {v : Byte} (hlo : lo ≤ a) (ha : a < Config.memSize)
    (hv : v ≠ Memory.unlisted a) (hne : ∀ c ∈ m, c.1 ≠ a) (hm : Memory.wfFrom lo m = true) :
    Memory.wfFrom lo (m.insert a v) = true := by
  induction m generalizing lo with
  | nil => simp [Memory.insert, Memory.wfFrom, hlo, ha, hv]
  | cons c m ih =>
    obtain ⟨hc, hne⟩ := List.forall_mem_cons.mp hne
    simp only [Memory.wfFrom, Bool.and_eq_true, decide_eq_true_eq] at hm
    simp only [Memory.insert]
    split
    · simp only [Memory.wfFrom, Bool.and_eq_true, decide_eq_true_eq]
      exact ⟨⟨⟨hlo, ha⟩, hv⟩, ⟨⟨by omega, hm.1.1.2⟩, hm.1.2⟩, hm.2⟩
    · simp only [Memory.wfFrom, Bool.and_eq_true, decide_eq_true_eq]
      exact ⟨hm.1, ih (by omega) hne hm.2⟩

/-- A write at an address of the memory keeps the canonical form. -/
theorem Memory.wf_write {m : Memory} {a : Nat} (v : Byte) (ha : a < Config.memSize) (hm : m.wf = true) :
    (m.write a v).wf = true := by
  unfold Memory.write
  split
  · exact Memory.wfFrom_erase a hm
  · exact Memory.wfFrom_insert (Nat.zero_le a) ha ‹_› (Memory.mem_erase_ne m a) (Memory.wfFrom_erase a hm)

theorem Memory.wf_writeList {m : Memory} (a : Nat) (vs : List Byte) (hm : m.wf = true) :
    (m.writeList a vs).wf = true := by
  induction vs generalizing m a with
  | nil => exact hm
  | cons v vs ih =>
    unfold Memory.writeList
    split
    · exact ih _ (Memory.wf_write v ‹_› hm)
    · exact hm

theorem byte_lt_memSize (a : Byte) : a.toNat < Config.memSize := a.isLt

/-- A store of the engine keeps the canonical form: its address is a byte. -/
theorem State.wf_store {s : State} (a v : Byte) (h : s.mem.wf = true) : (s.store a v).mem.wf = true :=
  Memory.wf_write v (byte_lt_memSize a) h

theorem State.wf_loadImage {s : State} (image : List Byte) (h : s.mem.wf = true) :
    (s.loadImage image).mem.wf = true :=
  Memory.wf_writeList 0 image h

theorem State.wf_placeWord {s : State} (nbits w : Nat) (h : s.mem.wf = true) :
    (s.placeWord nbits w).mem.wf = true :=
  Memory.wf_writeList _ _ h

theorem memWrite_keeps_wf {s t : State} {a : Nat} {v : Byte} (h : memWrite s a v = .ok t) (hm : s.mem.wf = true) :
    t.mem.wf = true := by
  unfold memWrite at h
  split at h
  · cases h
  · cases h; exact Memory.wf_write v (by omega) hm

/-- The memory of the state after reset has the canonical form. -/
theorem reset_memory_wf : State.reset.mem.wf = true := rfl

end Sys2Proof.Machine
end

