-- ==== Sys2Proof/Laws/State.lean ====
section
/-! SUPPORT. One lemma per field per update of State, so that no proof unfolds a record update. -/

namespace Sys2Proof.Machine

/-! ### setReg -/

@[simp] theorem State.setReg_regs (s : State) (r : Reg) (v : Byte) : (s.setReg r v).regs = s.regs.set r v := rfl
@[simp] theorem State.setReg_pc (s : State) (r : Reg) (v : Byte) : (s.setReg r v).pc = s.pc := rfl
@[simp] theorem State.setReg_ir (s : State) (r : Reg) (v : Byte) : (s.setReg r v).ir = s.ir := rfl
@[simp] theorem State.setReg_ie (s : State) (r : Reg) (v : Byte) : (s.setReg r v).ie = s.ie := rfl
@[simp] theorem State.setReg_eq (s : State) (r : Reg) (v : Byte) : (s.setReg r v).eq = s.eq := rfl
@[simp] theorem State.setReg_run (s : State) (r : Reg) (v : Byte) : (s.setReg r v).run = s.run := rfl
@[simp] theorem State.setReg_fcause (s : State) (r : Reg) (v : Byte) : (s.setReg r v).fcause = s.fcause := rfl
@[simp] theorem State.setReg_faddr (s : State) (r : Reg) (v : Byte) : (s.setReg r v).faddr = s.faddr := rfl
@[simp] theorem State.setReg_fval (s : State) (r : Reg) (v : Byte) : (s.setReg r v).fval = s.fval := rfl
@[simp] theorem State.setReg_mem (s : State) (r : Reg) (v : Byte) : (s.setReg r v).mem = s.mem := rfl
@[simp] theorem State.setReg_out (s : State) (r : Reg) (v : Byte) : (s.setReg r v).out = s.out := rfl
@[simp] theorem State.setReg_irqIn (s : State) (r : Reg) (v : Byte) : (s.setReg r v).irqIn = s.irqIn := rfl

/-! ### setPc -/

@[simp] theorem State.setPc_regs (s : State) (p : Pc) : (s.setPc p).regs = s.regs := rfl
@[simp] theorem State.setPc_pc (s : State) (p : Pc) : (s.setPc p).pc = p := rfl
@[simp] theorem State.setPc_ir (s : State) (p : Pc) : (s.setPc p).ir = s.ir := rfl
@[simp] theorem State.setPc_ie (s : State) (p : Pc) : (s.setPc p).ie = s.ie := rfl
@[simp] theorem State.setPc_eq (s : State) (p : Pc) : (s.setPc p).eq = s.eq := rfl
@[simp] theorem State.setPc_run (s : State) (p : Pc) : (s.setPc p).run = s.run := rfl
@[simp] theorem State.setPc_fcause (s : State) (p : Pc) : (s.setPc p).fcause = s.fcause := rfl
@[simp] theorem State.setPc_faddr (s : State) (p : Pc) : (s.setPc p).faddr = s.faddr := rfl
@[simp] theorem State.setPc_fval (s : State) (p : Pc) : (s.setPc p).fval = s.fval := rfl
@[simp] theorem State.setPc_mem (s : State) (p : Pc) : (s.setPc p).mem = s.mem := rfl
@[simp] theorem State.setPc_out (s : State) (p : Pc) : (s.setPc p).out = s.out := rfl
@[simp] theorem State.setPc_irqIn (s : State) (p : Pc) : (s.setPc p).irqIn = s.irqIn := rfl

/-! ### jump -/

@[simp] theorem State.jump_regs (s : State) (b : Byte) : (s.jump b).regs = s.regs := rfl
@[simp] theorem State.jump_pc (s : State) (b : Byte) : (s.jump b).pc = zext9 b := rfl
@[simp] theorem State.jump_ir (s : State) (b : Byte) : (s.jump b).ir = s.ir := rfl
@[simp] theorem State.jump_ie (s : State) (b : Byte) : (s.jump b).ie = s.ie := rfl
@[simp] theorem State.jump_eq (s : State) (b : Byte) : (s.jump b).eq = s.eq := rfl
@[simp] theorem State.jump_run (s : State) (b : Byte) : (s.jump b).run = s.run := rfl
@[simp] theorem State.jump_fcause (s : State) (b : Byte) : (s.jump b).fcause = s.fcause := rfl
@[simp] theorem State.jump_faddr (s : State) (b : Byte) : (s.jump b).faddr = s.faddr := rfl
@[simp] theorem State.jump_fval (s : State) (b : Byte) : (s.jump b).fval = s.fval := rfl
@[simp] theorem State.jump_mem (s : State) (b : Byte) : (s.jump b).mem = s.mem := rfl
@[simp] theorem State.jump_out (s : State) (b : Byte) : (s.jump b).out = s.out := rfl
@[simp] theorem State.jump_irqIn (s : State) (b : Byte) : (s.jump b).irqIn = s.irqIn := rfl

/-! ### advance -/

@[simp] theorem State.advance_regs (s : State) (n : Nat) : (s.advance n).regs = s.regs := rfl
@[simp] theorem State.advance_pc (s : State) (n : Nat) : (s.advance n).pc = s.pc + BitVec.ofNat 9 n := rfl
@[simp] theorem State.advance_ir (s : State) (n : Nat) : (s.advance n).ir = s.ir := rfl
@[simp] theorem State.advance_ie (s : State) (n : Nat) : (s.advance n).ie = s.ie := rfl
@[simp] theorem State.advance_eq (s : State) (n : Nat) : (s.advance n).eq = s.eq := rfl
@[simp] theorem State.advance_run (s : State) (n : Nat) : (s.advance n).run = s.run := rfl
@[simp] theorem State.advance_fcause (s : State) (n : Nat) : (s.advance n).fcause = s.fcause := rfl
@[simp] theorem State.advance_faddr (s : State) (n : Nat) : (s.advance n).faddr = s.faddr := rfl
@[simp] theorem State.advance_fval (s : State) (n : Nat) : (s.advance n).fval = s.fval := rfl
@[simp] theorem State.advance_mem (s : State) (n : Nat) : (s.advance n).mem = s.mem := rfl
@[simp] theorem State.advance_out (s : State) (n : Nat) : (s.advance n).out = s.out := rfl
@[simp] theorem State.advance_irqIn (s : State) (n : Nat) : (s.advance n).irqIn = s.irqIn := rfl

/-! ### setIr -/

@[simp] theorem State.setIr_regs (s : State) (b : Byte) : (s.setIr b).regs = s.regs := rfl
@[simp] theorem State.setIr_pc (s : State) (b : Byte) : (s.setIr b).pc = s.pc := rfl
@[simp] theorem State.setIr_ir (s : State) (b : Byte) : (s.setIr b).ir = b := rfl
@[simp] theorem State.setIr_ie (s : State) (b : Byte) : (s.setIr b).ie = s.ie := rfl
@[simp] theorem State.setIr_eq (s : State) (b : Byte) : (s.setIr b).eq = s.eq := rfl
@[simp] theorem State.setIr_run (s : State) (b : Byte) : (s.setIr b).run = s.run := rfl
@[simp] theorem State.setIr_fcause (s : State) (b : Byte) : (s.setIr b).fcause = s.fcause := rfl
@[simp] theorem State.setIr_faddr (s : State) (b : Byte) : (s.setIr b).faddr = s.faddr := rfl
@[simp] theorem State.setIr_fval (s : State) (b : Byte) : (s.setIr b).fval = s.fval := rfl
@[simp] theorem State.setIr_mem (s : State) (b : Byte) : (s.setIr b).mem = s.mem := rfl
@[simp] theorem State.setIr_out (s : State) (b : Byte) : (s.setIr b).out = s.out := rfl
@[simp] theorem State.setIr_irqIn (s : State) (b : Byte) : (s.setIr b).irqIn = s.irqIn := rfl

/-! ### fetched -/

@[simp] theorem State.fetched_regs (s : State) : (s.fetched).regs = s.regs := rfl
@[simp] theorem State.fetched_pc (s : State) : (s.fetched).pc = s.pc := rfl
@[simp] theorem State.fetched_ir (s : State) : (s.fetched).ir = s.mem.read s.pc.toNat := rfl
@[simp] theorem State.fetched_ie (s : State) : (s.fetched).ie = s.ie := rfl
@[simp] theorem State.fetched_eq (s : State) : (s.fetched).eq = s.eq := rfl
@[simp] theorem State.fetched_run (s : State) : (s.fetched).run = s.run := rfl
@[simp] theorem State.fetched_fcause (s : State) : (s.fetched).fcause = s.fcause := rfl
@[simp] theorem State.fetched_faddr (s : State) : (s.fetched).faddr = s.faddr := rfl
@[simp] theorem State.fetched_fval (s : State) : (s.fetched).fval = s.fval := rfl
@[simp] theorem State.fetched_mem (s : State) : (s.fetched).mem = s.mem := rfl
@[simp] theorem State.fetched_out (s : State) : (s.fetched).out = s.out := rfl
@[simp] theorem State.fetched_irqIn (s : State) : (s.fetched).irqIn = s.irqIn := rfl

/-! ### setIe -/

@[simp] theorem State.setIe_regs (s : State) (b : Bool) : (s.setIe b).regs = s.regs := rfl
@[simp] theorem State.setIe_pc (s : State) (b : Bool) : (s.setIe b).pc = s.pc := rfl
@[simp] theorem State.setIe_ir (s : State) (b : Bool) : (s.setIe b).ir = s.ir := rfl
@[simp] theorem State.setIe_ie (s : State) (b : Bool) : (s.setIe b).ie = b := rfl
@[simp] theorem State.setIe_eq (s : State) (b : Bool) : (s.setIe b).eq = s.eq := rfl
@[simp] theorem State.setIe_run (s : State) (b : Bool) : (s.setIe b).run = s.run := rfl
@[simp] theorem State.setIe_fcause (s : State) (b : Bool) : (s.setIe b).fcause = s.fcause := rfl
@[simp] theorem State.setIe_faddr (s : State) (b : Bool) : (s.setIe b).faddr = s.faddr := rfl
@[simp] theorem State.setIe_fval (s : State) (b : Bool) : (s.setIe b).fval = s.fval := rfl
@[simp] theorem State.setIe_mem (s : State) (b : Bool) : (s.setIe b).mem = s.mem := rfl
@[simp] theorem State.setIe_out (s : State) (b : Bool) : (s.setIe b).out = s.out := rfl
@[simp] theorem State.setIe_irqIn (s : State) (b : Bool) : (s.setIe b).irqIn = s.irqIn := rfl

/-! ### setEq -/

@[simp] theorem State.setEq_regs (s : State) (b : Bool) : (s.setEq b).regs = s.regs := rfl
@[simp] theorem State.setEq_pc (s : State) (b : Bool) : (s.setEq b).pc = s.pc := rfl
@[simp] theorem State.setEq_ir (s : State) (b : Bool) : (s.setEq b).ir = s.ir := rfl
@[simp] theorem State.setEq_ie (s : State) (b : Bool) : (s.setEq b).ie = s.ie := rfl
@[simp] theorem State.setEq_eq (s : State) (b : Bool) : (s.setEq b).eq = b := rfl
@[simp] theorem State.setEq_run (s : State) (b : Bool) : (s.setEq b).run = s.run := rfl
@[simp] theorem State.setEq_fcause (s : State) (b : Bool) : (s.setEq b).fcause = s.fcause := rfl
@[simp] theorem State.setEq_faddr (s : State) (b : Bool) : (s.setEq b).faddr = s.faddr := rfl
@[simp] theorem State.setEq_fval (s : State) (b : Bool) : (s.setEq b).fval = s.fval := rfl
@[simp] theorem State.setEq_mem (s : State) (b : Bool) : (s.setEq b).mem = s.mem := rfl
@[simp] theorem State.setEq_out (s : State) (b : Bool) : (s.setEq b).out = s.out := rfl
@[simp] theorem State.setEq_irqIn (s : State) (b : Bool) : (s.setEq b).irqIn = s.irqIn := rfl

/-! ### halt -/

@[simp] theorem State.halt_regs (s : State) : (s.halt).regs = s.regs := rfl
@[simp] theorem State.halt_pc (s : State) : (s.halt).pc = s.pc := rfl
@[simp] theorem State.halt_ir (s : State) : (s.halt).ir = s.ir := rfl
@[simp] theorem State.halt_ie (s : State) : (s.halt).ie = s.ie := rfl
@[simp] theorem State.halt_eq (s : State) : (s.halt).eq = s.eq := rfl
@[simp] theorem State.halt_run (s : State) : (s.halt).run = .halted := rfl
@[simp] theorem State.halt_fcause (s : State) : (s.halt).fcause = s.fcause := rfl
@[simp] theorem State.halt_faddr (s : State) : (s.halt).faddr = s.faddr := rfl
@[simp] theorem State.halt_fval (s : State) : (s.halt).fval = s.fval := rfl
@[simp] theorem State.halt_mem (s : State) : (s.halt).mem = s.mem := rfl
@[simp] theorem State.halt_out (s : State) : (s.halt).out = s.out := rfl
@[simp] theorem State.halt_irqIn (s : State) : (s.halt).irqIn = s.irqIn := rfl

/-! ### emit -/

@[simp] theorem State.emit_regs (s : State) (k : OutKind) (v : Byte) : (s.emit k v).regs = s.regs := rfl
@[simp] theorem State.emit_pc (s : State) (k : OutKind) (v : Byte) : (s.emit k v).pc = s.pc := rfl
@[simp] theorem State.emit_ir (s : State) (k : OutKind) (v : Byte) : (s.emit k v).ir = s.ir := rfl
@[simp] theorem State.emit_ie (s : State) (k : OutKind) (v : Byte) : (s.emit k v).ie = s.ie := rfl
@[simp] theorem State.emit_eq (s : State) (k : OutKind) (v : Byte) : (s.emit k v).eq = s.eq := rfl
@[simp] theorem State.emit_run (s : State) (k : OutKind) (v : Byte) : (s.emit k v).run = s.run := rfl
@[simp] theorem State.emit_fcause (s : State) (k : OutKind) (v : Byte) : (s.emit k v).fcause = s.fcause := rfl
@[simp] theorem State.emit_faddr (s : State) (k : OutKind) (v : Byte) : (s.emit k v).faddr = s.faddr := rfl
@[simp] theorem State.emit_fval (s : State) (k : OutKind) (v : Byte) : (s.emit k v).fval = s.fval := rfl
@[simp] theorem State.emit_mem (s : State) (k : OutKind) (v : Byte) : (s.emit k v).mem = s.mem := rfl
@[simp] theorem State.emit_out (s : State) (k : OutKind) (v : Byte) : (s.emit k v).out = s.out ++ [⟨k, v⟩] := rfl
@[simp] theorem State.emit_irqIn (s : State) (k : OutKind) (v : Byte) : (s.emit k v).irqIn = s.irqIn := rfl

/-! ### store -/

@[simp] theorem State.store_regs (s : State) (a v : Byte) : (s.store a v).regs = s.regs := rfl
@[simp] theorem State.store_pc (s : State) (a v : Byte) : (s.store a v).pc = s.pc := rfl
@[simp] theorem State.store_ir (s : State) (a v : Byte) : (s.store a v).ir = s.ir := rfl
@[simp] theorem State.store_ie (s : State) (a v : Byte) : (s.store a v).ie = s.ie := rfl
@[simp] theorem State.store_eq (s : State) (a v : Byte) : (s.store a v).eq = s.eq := rfl
@[simp] theorem State.store_run (s : State) (a v : Byte) : (s.store a v).run = s.run := rfl
@[simp] theorem State.store_fcause (s : State) (a v : Byte) : (s.store a v).fcause = s.fcause := rfl
@[simp] theorem State.store_faddr (s : State) (a v : Byte) : (s.store a v).faddr = s.faddr := rfl
@[simp] theorem State.store_fval (s : State) (a v : Byte) : (s.store a v).fval = s.fval := rfl
@[simp] theorem State.store_mem (s : State) (a v : Byte) : (s.store a v).mem = s.mem.write a.toNat v := rfl
@[simp] theorem State.store_out (s : State) (a v : Byte) : (s.store a v).out = s.out := rfl
@[simp] theorem State.store_irqIn (s : State) (a v : Byte) : (s.store a v).irqIn = s.irqIn := rfl

/-! ### raise -/

@[simp] theorem State.raise_regs (s : State) (f : Fault) : (s.raise f).regs = s.regs := rfl
@[simp] theorem State.raise_pc (s : State) (f : Fault) : (s.raise f).pc = s.pc := rfl
@[simp] theorem State.raise_ir (s : State) (f : Fault) : (s.raise f).ir = s.ir := rfl
@[simp] theorem State.raise_ie (s : State) (f : Fault) : (s.raise f).ie = s.ie := rfl
@[simp] theorem State.raise_eq (s : State) (f : Fault) : (s.raise f).eq = s.eq := rfl
@[simp] theorem State.raise_run (s : State) (f : Fault) : (s.raise f).run = .faulted := rfl
@[simp] theorem State.raise_fcause (s : State) (f : Fault) : (s.raise f).fcause = f.code := rfl
@[simp] theorem State.raise_faddr (s : State) (f : Fault) : (s.raise f).faddr = f.addr := rfl
@[simp] theorem State.raise_fval (s : State) (f : Fault) : (s.raise f).fval = f.info := rfl
@[simp] theorem State.raise_mem (s : State) (f : Fault) : (s.raise f).mem = s.mem := rfl
@[simp] theorem State.raise_out (s : State) (f : Fault) : (s.raise f).out = s.out := rfl
@[simp] theorem State.raise_irqIn (s : State) (f : Fault) : (s.raise f).irqIn = s.irqIn := rfl

/-! ### alu -/

@[simp] theorem State.alu_pc (s : State) (op : AluOp) (d r : Reg) : (s.alu op d r).pc = s.pc := rfl
@[simp] theorem State.alu_ir (s : State) (op : AluOp) (d r : Reg) : (s.alu op d r).ir = s.ir := rfl
@[simp] theorem State.alu_ie (s : State) (op : AluOp) (d r : Reg) : (s.alu op d r).ie = s.ie := rfl
@[simp] theorem State.alu_eq (s : State) (op : AluOp) (d r : Reg) : (s.alu op d r).eq = s.eq := rfl
@[simp] theorem State.alu_run (s : State) (op : AluOp) (d r : Reg) : (s.alu op d r).run = s.run := rfl
@[simp] theorem State.alu_fcause (s : State) (op : AluOp) (d r : Reg) : (s.alu op d r).fcause = s.fcause := rfl
@[simp] theorem State.alu_faddr (s : State) (op : AluOp) (d r : Reg) : (s.alu op d r).faddr = s.faddr := rfl
@[simp] theorem State.alu_fval (s : State) (op : AluOp) (d r : Reg) : (s.alu op d r).fval = s.fval := rfl
@[simp] theorem State.alu_mem (s : State) (op : AluOp) (d r : Reg) : (s.alu op d r).mem = s.mem := rfl
@[simp] theorem State.alu_out (s : State) (op : AluOp) (d r : Reg) : (s.alu op d r).out = s.out := rfl
@[simp] theorem State.alu_irqIn (s : State) (op : AluOp) (d r : Reg) : (s.alu op d r).irqIn = s.irqIn := rfl

/-! ### spDown -/

@[simp] theorem State.spDown_pc (s : State) : (s.spDown).pc = s.pc := rfl
@[simp] theorem State.spDown_ir (s : State) : (s.spDown).ir = s.ir := rfl
@[simp] theorem State.spDown_ie (s : State) : (s.spDown).ie = s.ie := rfl
@[simp] theorem State.spDown_eq (s : State) : (s.spDown).eq = s.eq := rfl
@[simp] theorem State.spDown_run (s : State) : (s.spDown).run = s.run := rfl
@[simp] theorem State.spDown_fcause (s : State) : (s.spDown).fcause = s.fcause := rfl
@[simp] theorem State.spDown_faddr (s : State) : (s.spDown).faddr = s.faddr := rfl
@[simp] theorem State.spDown_fval (s : State) : (s.spDown).fval = s.fval := rfl
@[simp] theorem State.spDown_mem (s : State) : (s.spDown).mem = s.mem := rfl
@[simp] theorem State.spDown_out (s : State) : (s.spDown).out = s.out := rfl
@[simp] theorem State.spDown_irqIn (s : State) : (s.spDown).irqIn = s.irqIn := rfl

/-! ### spUp -/

@[simp] theorem State.spUp_pc (s : State) : (s.spUp).pc = s.pc := rfl
@[simp] theorem State.spUp_ir (s : State) : (s.spUp).ir = s.ir := rfl
@[simp] theorem State.spUp_ie (s : State) : (s.spUp).ie = s.ie := rfl
@[simp] theorem State.spUp_eq (s : State) : (s.spUp).eq = s.eq := rfl
@[simp] theorem State.spUp_run (s : State) : (s.spUp).run = s.run := rfl
@[simp] theorem State.spUp_fcause (s : State) : (s.spUp).fcause = s.fcause := rfl
@[simp] theorem State.spUp_faddr (s : State) : (s.spUp).faddr = s.faddr := rfl
@[simp] theorem State.spUp_fval (s : State) : (s.spUp).fval = s.fval := rfl
@[simp] theorem State.spUp_mem (s : State) : (s.spUp).mem = s.mem := rfl
@[simp] theorem State.spUp_out (s : State) : (s.spUp).out = s.out := rfl
@[simp] theorem State.spUp_irqIn (s : State) : (s.spUp).irqIn = s.irqIn := rfl

/-! ### push -/

@[simp] theorem State.push_pc (s : State) (v : Byte) : (s.push v).pc = s.pc := rfl
@[simp] theorem State.push_ir (s : State) (v : Byte) : (s.push v).ir = s.ir := rfl
@[simp] theorem State.push_ie (s : State) (v : Byte) : (s.push v).ie = s.ie := rfl
@[simp] theorem State.push_eq (s : State) (v : Byte) : (s.push v).eq = s.eq := rfl
@[simp] theorem State.push_run (s : State) (v : Byte) : (s.push v).run = s.run := rfl
@[simp] theorem State.push_fcause (s : State) (v : Byte) : (s.push v).fcause = s.fcause := rfl
@[simp] theorem State.push_faddr (s : State) (v : Byte) : (s.push v).faddr = s.faddr := rfl
@[simp] theorem State.push_fval (s : State) (v : Byte) : (s.push v).fval = s.fval := rfl
@[simp] theorem State.push_out (s : State) (v : Byte) : (s.push v).out = s.out := rfl
@[simp] theorem State.push_irqIn (s : State) (v : Byte) : (s.push v).irqIn = s.irqIn := rfl

/-! ### pushReg -/

@[simp] theorem State.pushReg_pc (s : State) (r : Reg) : (s.pushReg r).pc = s.pc := rfl
@[simp] theorem State.pushReg_ir (s : State) (r : Reg) : (s.pushReg r).ir = s.ir := rfl
@[simp] theorem State.pushReg_ie (s : State) (r : Reg) : (s.pushReg r).ie = s.ie := rfl
@[simp] theorem State.pushReg_eq (s : State) (r : Reg) : (s.pushReg r).eq = s.eq := rfl
@[simp] theorem State.pushReg_run (s : State) (r : Reg) : (s.pushReg r).run = s.run := rfl
@[simp] theorem State.pushReg_fcause (s : State) (r : Reg) : (s.pushReg r).fcause = s.fcause := rfl
@[simp] theorem State.pushReg_faddr (s : State) (r : Reg) : (s.pushReg r).faddr = s.faddr := rfl
@[simp] theorem State.pushReg_fval (s : State) (r : Reg) : (s.pushReg r).fval = s.fval := rfl
@[simp] theorem State.pushReg_out (s : State) (r : Reg) : (s.pushReg r).out = s.out := rfl
@[simp] theorem State.pushReg_irqIn (s : State) (r : Reg) : (s.pushReg r).irqIn = s.irqIn := rfl

/-! ### popReg -/

@[simp] theorem State.popReg_pc (s : State) (r : Reg) : (s.popReg r).pc = s.pc := rfl
@[simp] theorem State.popReg_ir (s : State) (r : Reg) : (s.popReg r).ir = s.ir := rfl
@[simp] theorem State.popReg_ie (s : State) (r : Reg) : (s.popReg r).ie = s.ie := rfl
@[simp] theorem State.popReg_eq (s : State) (r : Reg) : (s.popReg r).eq = s.eq := rfl
@[simp] theorem State.popReg_run (s : State) (r : Reg) : (s.popReg r).run = s.run := rfl
@[simp] theorem State.popReg_fcause (s : State) (r : Reg) : (s.popReg r).fcause = s.fcause := rfl
@[simp] theorem State.popReg_faddr (s : State) (r : Reg) : (s.popReg r).faddr = s.faddr := rfl
@[simp] theorem State.popReg_fval (s : State) (r : Reg) : (s.popReg r).fval = s.fval := rfl
@[simp] theorem State.popReg_mem (s : State) (r : Reg) : (s.popReg r).mem = s.mem := rfl
@[simp] theorem State.popReg_out (s : State) (r : Reg) : (s.popReg r).out = s.out := rfl
@[simp] theorem State.popReg_irqIn (s : State) (r : Reg) : (s.popReg r).irqIn = s.irqIn := rfl

/-! ### clearPending -/

@[simp] theorem State.clearPending_pc (s : State) (i : Line) : (s.clearPending i).pc = s.pc := rfl
@[simp] theorem State.clearPending_ir (s : State) (i : Line) : (s.clearPending i).ir = s.ir := rfl
@[simp] theorem State.clearPending_ie (s : State) (i : Line) : (s.clearPending i).ie = s.ie := rfl
@[simp] theorem State.clearPending_eq (s : State) (i : Line) : (s.clearPending i).eq = s.eq := rfl
@[simp] theorem State.clearPending_run (s : State) (i : Line) : (s.clearPending i).run = s.run := rfl
@[simp] theorem State.clearPending_fcause (s : State) (i : Line) : (s.clearPending i).fcause = s.fcause := rfl
@[simp] theorem State.clearPending_faddr (s : State) (i : Line) : (s.clearPending i).faddr = s.faddr := rfl
@[simp] theorem State.clearPending_fval (s : State) (i : Line) : (s.clearPending i).fval = s.fval := rfl
@[simp] theorem State.clearPending_mem (s : State) (i : Line) : (s.clearPending i).mem = s.mem := rfl
@[simp] theorem State.clearPending_out (s : State) (i : Line) : (s.clearPending i).out = s.out := rfl
@[simp] theorem State.clearPending_irqIn (s : State) (i : Line) : (s.clearPending i).irqIn = s.irqIn := rfl

/-! ### request -/

@[simp] theorem State.request_pc (s : State) (bits : Byte) : (s.request bits).pc = s.pc := rfl
@[simp] theorem State.request_ir (s : State) (bits : Byte) : (s.request bits).ir = s.ir := rfl
@[simp] theorem State.request_ie (s : State) (bits : Byte) : (s.request bits).ie = s.ie := rfl
@[simp] theorem State.request_eq (s : State) (bits : Byte) : (s.request bits).eq = s.eq := rfl
@[simp] theorem State.request_run (s : State) (bits : Byte) : (s.request bits).run = s.run := rfl
@[simp] theorem State.request_fcause (s : State) (bits : Byte) : (s.request bits).fcause = s.fcause := rfl
@[simp] theorem State.request_faddr (s : State) (bits : Byte) : (s.request bits).faddr = s.faddr := rfl
@[simp] theorem State.request_fval (s : State) (bits : Byte) : (s.request bits).fval = s.fval := rfl
@[simp] theorem State.request_mem (s : State) (bits : Byte) : (s.request bits).mem = s.mem := rfl
@[simp] theorem State.request_out (s : State) (bits : Byte) : (s.request bits).out = s.out := rfl
@[simp] theorem State.request_irqIn (s : State) (bits : Byte) : (s.request bits).irqIn = s.irqIn := rfl

end Sys2Proof.Machine
end

