-- ==== Sys2Proof/Laws/Ops.lean ====
section
/-! SUPPORT. What each shared operation can do, said once. -/

namespace Sys2Proof.Machine

/-! ### Registers -/

@[simp] theorem State.reg_setReg (s : State) (r d : Reg) (v : Byte) :
    (s.setReg d v).reg r = if r = d then v else s.reg r := by
  simp only [State.reg, State.setReg, Fin.getElem_fin, Vector.getElem_set, Fin.ext_iff, eq_comm]

/-- The registers depend on the field `regs` alone. -/
theorem State.reg_congr {s t : State} (h : t.regs = s.regs) (r : Reg) : t.reg r = s.reg r := by
  simp [State.reg, h]

@[simp] theorem State.reg_setPc (s : State) (p : Pc) (r : Reg) : (s.setPc p).reg r = s.reg r := rfl
@[simp] theorem State.reg_jump (s : State) (b : Byte) (r : Reg) : (s.jump b).reg r = s.reg r := rfl
@[simp] theorem State.reg_advance (s : State) (n : Nat) (r : Reg) : (s.advance n).reg r = s.reg r := rfl
@[simp] theorem State.reg_setIr (s : State) (b : Byte) (r : Reg) : (s.setIr b).reg r = s.reg r := rfl
@[simp] theorem State.reg_fetched (s : State) (r : Reg) : s.fetched.reg r = s.reg r := rfl
@[simp] theorem State.reg_setIe (s : State) (b : Bool) (r : Reg) : (s.setIe b).reg r = s.reg r := rfl
@[simp] theorem State.reg_setEq (s : State) (b : Bool) (r : Reg) : (s.setEq b).reg r = s.reg r := rfl
@[simp] theorem State.reg_halt (s : State) (r : Reg) : s.halt.reg r = s.reg r := rfl
@[simp] theorem State.reg_emit (s : State) (k : OutKind) (v : Byte) (r : Reg) : (s.emit k v).reg r = s.reg r := rfl
@[simp] theorem State.reg_store (s : State) (a v : Byte) (r : Reg) : (s.store a v).reg r = s.reg r := rfl
@[simp] theorem State.reg_raise (s : State) (f : Fault) (r : Reg) : (s.raise f).reg r = s.reg r := rfl

/-! ### The frame relations compose -/

theorem SameControl.refl (s : State) : SameControl s s := ⟨rfl, rfl, rfl, rfl, rfl, rfl, rfl, rfl, rfl⟩

theorem SameControl.trans {s t u : State} (h : SameControl s t) (k : SameControl t u) : SameControl s u := by
  obtain ⟨h1, h2, h3, h4, h5, h6, h7, h8, h9⟩ := h
  obtain ⟨k1, k2, k3, k4, k5, k6, k7, k8, k9⟩ := k
  exact ⟨k1.trans h1, k2.trans h2, k3.trans h3, k4.trans h4, k5.trans h5, k6.trans h6, k7.trans h7, k8.trans h8,
    k9.trans h9⟩

theorem SameRegsBut.trans {ds : List Reg} {s t u : State} (h : SameRegsBut ds s t) (k : SameRegsBut ds t u) :
    SameRegsBut ds s u := fun r hr => (k r hr).trans (h r hr)

theorem SameMemoryBut.trans {as : List Nat} {s t u : State} (h : SameMemoryBut as s t) (k : SameMemoryBut as t u) :
    SameMemoryBut as s u := fun a ha => (k a ha).trans (h a ha)

theorem setReg_sameControl (s : State) (r : Reg) (v : Byte) : SameControl s (s.setReg r v) := SameControl.refl s

theorem store_sameControl (s : State) (a v : Byte) : SameControl s (s.store a v) := SameControl.refl s

theorem setPc_sameControl (s : State) (p : Pc) : SameControl s (s.setPc p) := SameControl.refl s

/-! ### Memory accesses -/

@[simp] theorem State.load_store (s : State) (a b v : Byte) :
    (s.store a v).load b = if b = a then v else s.load b := by
  simp only [State.load, State.store_mem, Memory.read_write, BitVec.toNat_inj]

@[simp] theorem State.load_setReg (s : State) (r : Reg) (v a : Byte) : (s.setReg r v).load a = s.load a := rfl
@[simp] theorem State.load_setPc (s : State) (p : Pc) (a : Byte) : (s.setPc p).load a = s.load a := rfl
@[simp] theorem State.load_jump (s : State) (b a : Byte) : (s.jump b).load a = s.load a := rfl
@[simp] theorem State.load_advance (s : State) (n : Nat) (a : Byte) : (s.advance n).load a = s.load a := rfl
@[simp] theorem State.load_setIe (s : State) (b : Bool) (a : Byte) : (s.setIe b).load a = s.load a := rfl

/-- At an address that is a byte, `MemWrite` is the engine's store (R53). -/
theorem memWrite_byte (s : State) (a v : Byte) : memWrite s a.toNat v = .ok (s.store a v) := by
  have h : ¬ Config.memSize ≤ a.toNat := Nat.not_le.mpr (byte_lt_memSize a)
  simp [memWrite, h, State.store]

/-- At an address that is a byte, `MemRead` is the engine's load (R52). -/
theorem memRead_byte (s : State) (a : Byte) : memRead s a.toNat = .ok (s.load a) := by
  have h : ¬ Config.memSize ≤ a.toNat := Nat.not_le.mpr (byte_lt_memSize a)
  simp [memRead, h, State.load]

/-! ### The stack -/

theorem State.spDown_def (s : State) : s.spDown = s.setReg 7 (s.reg 7 - 1) := rfl
theorem State.spUp_def (s : State) : s.spUp = s.setReg 7 (s.reg 7 + 1) := rfl

/-- A push, as its two writes (R140). -/
theorem State.push_def (s : State) (v : Byte) :
    s.push v = (s.setReg 7 (s.reg 7 - 1)).store (s.reg 7 - 1) v := by
  simp [State.push, State.spDown, Config.spReg]

/-- The byte a register push stores: register 7 is read after the decrement (R142). -/
theorem State.pushReg_def (s : State) (r : Reg) : s.pushReg r = s.push (if r = 7 then s.reg 7 - 1 else s.reg r) := by
  simp [State.pushReg, State.spDown, Config.spReg]

theorem State.top_def (s : State) : s.top = s.load (s.reg 7) := rfl

/-- A register pop, as its two writes: register 7 is incremented after `x[r]` is written (R142). -/
theorem State.popReg_def (s : State) (r : Reg) :
    s.popReg r = (s.setReg r (s.load (s.reg 7))).setReg 7 ((if r = 7 then s.load (s.reg 7) else s.reg 7) + 1) := by
  simp [State.popReg, State.spUp, State.top, Config.spReg, eq_comm]

theorem push_sameControl (s : State) (v : Byte) : SameControl s (s.push v) := SameControl.refl s
theorem pushReg_sameControl (s : State) (r : Reg) : SameControl s (s.pushReg r) := SameControl.refl s
theorem popReg_sameControl (s : State) (r : Reg) : SameControl s (s.popReg r) := SameControl.refl s

theorem State.wf_push {s : State} (v : Byte) (h : s.mem.wf = true) : (s.push v).mem.wf = true :=
  Memory.wf_write v (byte_lt_memSize _) h

theorem State.wf_pushReg {s : State} (r : Reg) (h : s.mem.wf = true) : (s.pushReg r).mem.wf = true :=
  State.wf_push _ h

/-! A pop, and so the whole restore, carries along what it does not read. -/

@[simp] theorem State.popReg_setIr (s : State) (b : Byte) (r : Reg) : (s.setIr b).popReg r = (s.popReg r).setIr b := rfl
@[simp] theorem State.popReg_setIe (s : State) (b : Bool) (r : Reg) : (s.setIe b).popReg r = (s.popReg r).setIe b := rfl
@[simp] theorem State.popReg_setEq (s : State) (b : Bool) (r : Reg) : (s.setEq b).popReg r = (s.popReg r).setEq b := rfl

/-! ### Interrupts -/

/-- The save steps, one after the other (R186). -/
theorem State.saveFrame_def (s : State) (i : Line) (ret : Byte) :
    s.saveFrame i ret =
      (((((((((((s.setIe false).clearPending i).push ret).pushReg 0).pushReg 1).pushReg 2).pushReg 3).pushReg 4).pushReg
        5).pushReg 6).pushReg 7) := rfl

@[simp] theorem State.saveFrame_pc (s : State) (i : Line) (ret : Byte) : (s.saveFrame i ret).pc = s.pc := by
  simp only [State.saveFrame_def, State.pushReg_pc, State.push_pc]
  rfl

theorem State.wf_saveFrame {s : State} (i : Line) (ret : Byte) (h : s.mem.wf = true) :
    (s.saveFrame i ret).mem.wf = true := by
  rw [State.saveFrame_def]
  repeat' first
    | apply State.wf_pushReg
    | apply State.wf_push
  exact h

/-- The restore steps, one after the other (R162). -/
theorem State.restoreFrame_def (s : State) :
    s.restoreFrame =
      let t := ((((((((s.popReg 7).popReg 6).popReg 5).popReg 4).popReg 3).popReg 2).popReg 1).popReg 0)
      (t.spUp.jump t.top).setIe true := rfl

/-- The last steps of the return, `pc` and `ie`, after the registers are popped. -/
theorem restorePc_sameControl {s t : State} (h : SameControl s t) :
    SameControl (s.setIe true) ((t.spUp.jump t.top).setIe true) := by
  obtain ⟨h1, -, h3, h4, h5, h6, h7, h8, h9⟩ := h
  exact ⟨h1, rfl, h3, h4, h5, h6, h7, h8, h9⟩

theorem popRegs_sameControl (rs : List Reg) (s : State) : SameControl s (rs.foldl State.popReg s) := by
  induction rs generalizing s with
  | nil => exact SameControl.refl s
  | cons r rs ih => exact (popReg_sameControl s r).trans (ih _)

theorem pushRegs_sameControl (rs : List Reg) (s : State) : SameControl s (rs.foldl State.pushReg s) := by
  induction rs generalizing s with
  | nil => exact SameControl.refl s
  | cons r rs ih => exact (pushReg_sameControl s r).trans (ih _)

theorem saveFrame_sameControl (s : State) (i : Line) (ret : Byte) :
    SameControl (s.setIe false) (s.saveFrame i ret) := by
  have h1 : SameControl (s.setIe false) ((s.setIe false).clearPending i) := setReg_sameControl _ _ _
  have h2 := push_sameControl ((s.setIe false).clearPending i) ret
  exact (h1.trans h2).trans (pushRegs_sameControl pushOrder _)

theorem restoreFrame_sameControl (s : State) : SameControl (s.setIe true) s.restoreFrame :=
  restorePc_sameControl (popRegs_sameControl popOrder s)

@[simp] theorem State.restoreFrame_mem (s : State) : s.restoreFrame.mem = s.mem := by
  simp only [State.restoreFrame_def, State.setIe_mem, State.jump_mem, State.spUp_mem, State.popReg_mem]

theorem State.restoreFrame_setIr (s : State) (b : Byte) :
    (s.setIr b).restoreFrame = s.restoreFrame.setIr b := by
  simp only [State.restoreFrame_def, State.popReg_setIr]
  generalize State.popReg _ 0 = t
  rfl

theorem State.restoreFrame_setIe (s : State) (b : Bool) : (s.setIe b).restoreFrame = s.restoreFrame := by
  simp only [State.restoreFrame_def, State.popReg_setIe]
  generalize State.popReg _ 0 = t
  rfl

theorem State.restoreFrame_setEq (s : State) (b : Bool) :
    (s.setEq b).restoreFrame = s.restoreFrame.setEq b := by
  simp only [State.restoreFrame_def, State.popReg_setEq]
  generalize State.popReg _ 0 = t
  rfl

theorem restoreFrame_pc_le (s : State) : s.restoreFrame.pc.toNat ≤ 256 := by
  rw [State.restoreFrame_def]
  simp only [State.setIe_pc, State.jump_pc, zext9, BitVec.toNat_setWidth]
  have := (popOrder.foldl State.popReg s).top.isLt
  omega

/-- Interrupt entry either faults before any change or saves the frame and jumps (R186, R189). -/
theorem interruptEntry_cases {i : Line} {s t : State} (h : interruptEntry i s = .next t) :
    (254 ≤ s.pc.toNat ∧ t = s.raise (.dataRange s.pc (BitVec.ofNat 9 (s.pc.toNat + 2)))) ∨
    (s.pc.toNat < 254 ∧
      t = (s.saveFrame i (BitVec.ofNat 8 (s.pc.toNat + 2))).jump
        ((s.saveFrame i (BitVec.ofNat 8 (s.pc.toNat + 2))).load (vectorAddr i))) := by
  unfold interruptEntry State.retAddr irqRetAdv at h
  by_cases hp : 256 ≤ s.pc.toNat + 2
  · rw [if_pos hp] at h
    exact .inl ⟨by omega, by cases h; rfl⟩
  · rw [if_neg hp] at h
    exact .inr ⟨by omega, by cases h; rfl⟩

/-- Which line the check takes: with `ie = 1`, one that is pending and unmasked with none before it (R184, R185). -/
theorem takenLine_some {s : State} {i : Line} (h : s.takenLine = some i) :
    s.ie = true ∧ s.pending.getLsbD i.val = true := by
  unfold State.takenLine at h
  split at h
  · exact ⟨‹_›, List.find?_some (p := fun i : Line => s.pending.getLsbD i.val) h⟩
  · cases h

/-! ### The sampling of requests -/

/-- The sampling changes register 6 and the schedule, nothing else (R181). -/
theorem State.sampleIrq_cases (s : State) :
    (s.irqIn = [] ∧ s.sampleIrq = s) ∨
    ∃ bits rest, s.irqIn = bits :: rest ∧
      s.sampleIrq = { s.setReg 6 (s.reg 6 ||| bits) with irqIn := rest } := by
  unfold State.sampleIrq
  split
  · exact .inl ⟨‹_›, rfl⟩
  · exact .inr ⟨_, _, ‹_›, rfl⟩

@[simp] theorem State.sampleIrq_pc (s : State) : s.sampleIrq.pc = s.pc := by
  obtain ⟨-, h⟩ | ⟨_, _, -, h⟩ := s.sampleIrq_cases <;> (rw [h]; try rfl)
@[simp] theorem State.sampleIrq_ir (s : State) : s.sampleIrq.ir = s.ir := by
  obtain ⟨-, h⟩ | ⟨_, _, -, h⟩ := s.sampleIrq_cases <;> (rw [h]; try rfl)
@[simp] theorem State.sampleIrq_ie (s : State) : s.sampleIrq.ie = s.ie := by
  obtain ⟨-, h⟩ | ⟨_, _, -, h⟩ := s.sampleIrq_cases <;> (rw [h]; try rfl)
@[simp] theorem State.sampleIrq_eq (s : State) : s.sampleIrq.eq = s.eq := by
  obtain ⟨-, h⟩ | ⟨_, _, -, h⟩ := s.sampleIrq_cases <;> (rw [h]; try rfl)
@[simp] theorem State.sampleIrq_run (s : State) : s.sampleIrq.run = s.run := by
  obtain ⟨-, h⟩ | ⟨_, _, -, h⟩ := s.sampleIrq_cases <;> (rw [h]; try rfl)
@[simp] theorem State.sampleIrq_fcause (s : State) : s.sampleIrq.fcause = s.fcause := by
  obtain ⟨-, h⟩ | ⟨_, _, -, h⟩ := s.sampleIrq_cases <;> (rw [h]; try rfl)
@[simp] theorem State.sampleIrq_faddr (s : State) : s.sampleIrq.faddr = s.faddr := by
  obtain ⟨-, h⟩ | ⟨_, _, -, h⟩ := s.sampleIrq_cases <;> (rw [h]; try rfl)
@[simp] theorem State.sampleIrq_fval (s : State) : s.sampleIrq.fval = s.fval := by
  obtain ⟨-, h⟩ | ⟨_, _, -, h⟩ := s.sampleIrq_cases <;> (rw [h]; try rfl)
@[simp] theorem State.sampleIrq_mem (s : State) : s.sampleIrq.mem = s.mem := by
  obtain ⟨-, h⟩ | ⟨_, _, -, h⟩ := s.sampleIrq_cases <;> (rw [h]; try rfl)
@[simp] theorem State.sampleIrq_out (s : State) : s.sampleIrq.out = s.out := by
  obtain ⟨-, h⟩ | ⟨_, _, -, h⟩ := s.sampleIrq_cases <;> (rw [h]; try rfl)

/-- No register but IS changes at a boundary (R181). -/
theorem State.sampleIrq_reg (s : State) {r : Reg} (hr : r ≠ 6) : s.sampleIrq.reg r = s.reg r := by
  obtain ⟨-, h⟩ | ⟨_, _, -, h⟩ := s.sampleIrq_cases
  · rw [h]
  · rw [h]
    exact (State.reg_setReg s r 6 _).trans (if_neg hr)

end Sys2Proof.Machine
end

