-- ==== Sys2Proof/Laws/Operands.lean ====
section
/-! SUPPORT. Operand check and operand fetch, said once. -/

namespace Sys2Proof.Machine

@[simp] theorem regByte_toNat (r : Reg) : (regByte r).toNat = r.val := by
  have h := r.isLt
  simp only [regByte, BitVec.toNat_ofNat]
  omega

@[simp] theorem regOperand_regByte (s : State) (k : Nat) (r : Reg) : regOperand s k (regByte r) = .ok r := by
  have h : (regByte r).toNat < 8 := (regByte_toNat r).symm ▸ r.isLt
  rw [regOperand, dif_pos h]
  exact congrArg _ (Fin.ext (regByte_toNat r))

theorem regOperand_illegal (s : State) (k : Nat) {b : Byte} (h : 8 ≤ b.toNat) :
    regOperand s k b = .error (.illegalOperand (s.pc + BitVec.ofNat 9 k) b) :=
  dif_neg (Nat.not_lt.mpr h)

/-- A byte is the operand byte of a register, or above 7. -/
theorem regByte_cases (b : Byte) : (∃ r, b = regByte r) ∨ 8 ≤ b.toNat := by
  by_cases h : b.toNat < 8
  · exact .inl ⟨⟨b.toNat, h⟩, by simp [regByte]⟩
  · exact .inr (Nat.le_of_not_lt h)

@[simp] theorem withReg_regByte (s : State) (r : Reg) (effect : Reg → Result) :
    withReg s (regByte r) effect = effect r := by
  simp [withReg]

theorem withReg_illegal (s : State) {b : Byte} (effect : Reg → Result) (h : 8 ≤ b.toNat) :
    withReg s b effect = .next (s.raise (.illegalOperand (s.pc + 1) b)) := by
  simp [withReg, regOperand_illegal s 1 h]

@[simp] theorem withRegs_regByte (s : State) (a b : Reg) (effect : Reg → Reg → Result) :
    withRegs s (regByte a) (regByte b) effect = effect a b := by
  simp [withRegs]

theorem withRegs_illegal_first (s : State) {a : Byte} (b : Byte) (effect : Reg → Reg → Result) (h : 8 ≤ a.toNat) :
    withRegs s a b effect = .next (s.raise (.illegalOperand (s.pc + 1) a)) := by
  simp [withRegs, regOperand_illegal s 1 h]

theorem withRegs_illegal_second (s : State) (a : Reg) {b : Byte} (effect : Reg → Reg → Result) (h : 8 ≤ b.toNat) :
    withRegs s (regByte a) b effect = .next (s.raise (.illegalOperand (s.pc + 2) b)) := by
  simp [withRegs, regOperand_illegal s 2 h]

/-- What a format R handler can answer: its effect at a register, or ILLEGAL_OPERAND (R106). -/
theorem withReg_cases {s t : State} {b : Byte} {effect : Reg → Result} (h : withReg s b effect = .next t) :
    (∃ r, b = regByte r ∧ effect r = .next t) ∨
    (8 ≤ b.toNat ∧ t = s.raise (.illegalOperand (s.pc + 1) b)) := by
  obtain ⟨r, rfl⟩ | hb := regByte_cases b
  · exact .inl ⟨r, rfl, by simpa using h⟩
  · rw [withReg_illegal s effect hb] at h
    exact .inr ⟨hb, by cases h; rfl⟩

/-- What a format RR handler can answer: its effect at two registers, or ILLEGAL_OPERAND (R106). -/
theorem withRegs_cases {s t : State} {a b : Byte} {effect : Reg → Reg → Result}
    (h : withRegs s a b effect = .next t) :
    (∃ ra rb, a = regByte ra ∧ b = regByte rb ∧ effect ra rb = .next t) ∨
    (8 ≤ a.toNat ∧ t = s.raise (.illegalOperand (s.pc + 1) a)) ∨
    (8 ≤ b.toNat ∧ t = s.raise (.illegalOperand (s.pc + 2) b)) := by
  obtain ⟨ra, rfl⟩ | ha := regByte_cases a
  · obtain ⟨rb, rfl⟩ | hb := regByte_cases b
    · exact .inl ⟨ra, rb, rfl, rfl, by simpa using h⟩
    · rw [withRegs_illegal_second s ra effect hb] at h
      exact .inr (.inr ⟨hb, by cases h; rfl⟩)
  · rw [withRegs_illegal_first s b effect ha] at h
    exact .inr (.inl ⟨ha, by cases h; rfl⟩)

/-- A change `f` of the state that the operand check does not see, and that a raise and the effect carry along, is carried
along by a format R handler. -/
theorem withReg_map {s t : State} {b : Byte} {effect effect' : Reg → Result} (f : State → State)
    (hpc : (f s).pc = s.pc) (hraise : ∀ e, (f s).raise e = f (s.raise e))
    (he : ∀ r t, effect r = .next t → effect' r = .next (f t)) (h : withReg s b effect = .next t) :
    withReg (f s) b effect' = .next (f t) := by
  obtain ⟨r, rfl⟩ | hb := regByte_cases b
  · rw [withReg_regByte] at h ⊢
    exact he r t h
  · rw [withReg_illegal _ _ hb] at h ⊢
    cases h
    rw [hpc, hraise]

/-- The same for format RR. -/
theorem withRegs_map {s t : State} {a b : Byte} {effect effect' : Reg → Reg → Result} (f : State → State)
    (hpc : (f s).pc = s.pc) (hraise : ∀ e, (f s).raise e = f (s.raise e))
    (he : ∀ ra rb t, effect ra rb = .next t → effect' ra rb = .next (f t)) (h : withRegs s a b effect = .next t) :
    withRegs (f s) a b effect' = .next (f t) := by
  obtain ⟨ra, rfl⟩ | ha := regByte_cases a
  · obtain ⟨rb, rfl⟩ | hb := regByte_cases b
    · rw [withRegs_regByte] at h ⊢
      exact he ra rb t h
    · rw [withRegs_illegal_second _ _ _ hb] at h ⊢
      cases h
      rw [hpc, hraise]
  · rw [withRegs_illegal_first _ _ _ ha] at h ⊢
    cases h
    rw [hpc, hraise]

/-- The bytes that can be read from an address: as many as asked, and as the memory has. -/
theorem readWindow_length (s : State) (n a : Nat) : (readWindow s n a).length = min n (256 - a) := by
  induction n generalizing a with
  | zero => simp [readWindow]
  | succ n ih =>
    unfold readWindow memRead
    by_cases h : Config.memSize ≤ a
    · simp only [h, if_true, List.length_nil]
      unfold Config.memSize at h
      omega
    · simp only [h, if_false, List.length_cons, ih]
      unfold Config.memSize at h
      omega

/-- A window starts with the byte at its address. -/
theorem readWindow_succ (s : State) (n : Nat) {a : Nat} (h : a < 256) :
    readWindow s (n + 1) a = s.mem.read a :: readWindow s n (a + 1) := by
  have h' : ¬ Config.memSize ≤ a := by unfold Config.memSize; omega
  simp [readWindow, memRead, h']

theorem readWindow_beyond (s : State) (n : Nat) {a : Nat} (h : 256 ≤ a) : readWindow s n a = [] := by
  have h' : Config.memSize ≤ a := by unfold Config.memSize; omega
  cases n <;> simp [readWindow, memRead, h']

end Sys2Proof.Machine
end

