-- ==== Sys2Proof/Laws/Exec.lean ====
section
/-! SUPPORT. Each instruction at register operands, as the state it answers; and what HLT, RET, IRET and the transfers
write. -/

namespace Sys2Proof.Machine

variable (s : State) (r a b : Reg) (imm : Byte)

@[simp] theorem exec_hlt : exec .hlt s = .next (s.halt.advance 1) := rfl

@[simp] theorem exec_ldi : exec (.ldi (regByte r) imm) s = .next ((s.setReg r imm).advance 3) :=
  withReg_regByte s r _

@[simp] theorem exec_add : exec (.add (regByte a) (regByte b)) s = .next ((s.alu .add a b).advance 3) :=
  withRegs_regByte s a b _

@[simp] theorem exec_mul : exec (.mul (regByte a) (regByte b)) s = .next ((s.alu .mul a b).advance 3) :=
  withRegs_regByte s a b _

@[simp] theorem exec_cmp :
    exec (.cmp (regByte a) (regByte b)) s = .next ((s.setEq (compareEqual (s.reg a) (s.reg b))).advance 3) :=
  withRegs_regByte s a b _

@[simp] theorem exec_prn : exec (.prn (regByte r)) s = .next ((s.emit .dec (s.reg r)).advance 2) :=
  withReg_regByte s r _

@[simp] theorem exec_pra : exec (.pra (regByte r)) s = .next ((s.emit .chr (s.reg r)).advance 2) :=
  withReg_regByte s r _

@[simp] theorem exec_push : exec (.push (regByte r)) s = .next ((s.pushReg r).advance 2) :=
  withReg_regByte s r _

@[simp] theorem exec_pop : exec (.pop (regByte r)) s = .next ((s.popReg r).advance 2) :=
  withReg_regByte s r _

@[simp] theorem exec_st :
    exec (.st (regByte a) (regByte b)) s = .next ((s.store (s.reg a) (s.reg b)).advance 3) :=
  withRegs_regByte s a b _

/-- CALL where its return address is a byte (R151). -/
theorem exec_call (h : s.pc.toNat < 254) :
    exec (.call (regByte r)) s =
      .next ((s.push (BitVec.ofNat 8 (s.pc.toNat + 2))).jump
        ((s.push (BitVec.ofNat 8 (s.pc.toNat + 2))).reg r)) :=
  (withReg_regByte s r _).trans (if_neg (by unfold State.retAddr; omega))

/-- CALL where its return address is not a byte (R173). -/
theorem exec_call_dataRange (h : 254 ≤ s.pc.toNat) :
    exec (.call (regByte r)) s = .next (s.raise (.dataRange s.pc (BitVec.ofNat 9 (s.pc.toNat + 2)))) :=
  (withReg_regByte s r _).trans (if_pos (by unfold State.retAddr; omega))

@[simp] theorem exec_ret : exec .ret s = .next (s.spUp.jump s.top) := rfl

@[simp] theorem exec_jmp : exec (.jmp (regByte r)) s = .next (s.jump (s.reg r)) :=
  withReg_regByte s r _

@[simp] theorem exec_jeq :
    exec (.jeq (regByte r)) s = .next (if s.eq then s.jump (s.reg r) else s.advance 2) :=
  withReg_regByte s r _

@[simp] theorem exec_jne :
    exec (.jne (regByte r)) s = .next (if s.eq then s.advance 2 else s.jump (s.reg r)) :=
  withReg_regByte s r _

@[simp] theorem exec_int : exec (.int (regByte r)) s = .next (s.advance 2) :=
  withReg_regByte s r _

@[simp] theorem exec_iret : exec .iret s = .next s.restoreFrame := rfl

/-- Everything an instruction can do: its effect at register operands, or the raise of a fatal condition that left the
state as it was. `exec_effect` says that nothing else happens; `cases` on it is the case split of every claim over all
instructions. -/
inductive Effect : Instr → State → State → Prop where
  | hlt (s : State) : Effect .hlt s (s.halt.advance 1)
  | ldi (s : State) (r : Reg) (imm : Byte) : Effect (.ldi (regByte r) imm) s ((s.setReg r imm).advance 3)
  | add (s : State) (a b : Reg) : Effect (.add (regByte a) (regByte b)) s ((s.alu .add a b).advance 3)
  | mul (s : State) (a b : Reg) : Effect (.mul (regByte a) (regByte b)) s ((s.alu .mul a b).advance 3)
  | cmp (s : State) (a b : Reg) :
      Effect (.cmp (regByte a) (regByte b)) s ((s.setEq (compareEqual (s.reg a) (s.reg b))).advance 3)
  | prn (s : State) (r : Reg) : Effect (.prn (regByte r)) s ((s.emit .dec (s.reg r)).advance 2)
  | pra (s : State) (r : Reg) : Effect (.pra (regByte r)) s ((s.emit .chr (s.reg r)).advance 2)
  | push (s : State) (r : Reg) : Effect (.push (regByte r)) s ((s.pushReg r).advance 2)
  | pop (s : State) (r : Reg) : Effect (.pop (regByte r)) s ((s.popReg r).advance 2)
  | st (s : State) (a b : Reg) : Effect (.st (regByte a) (regByte b)) s ((s.store (s.reg a) (s.reg b)).advance 3)
  | call (s : State) (r : Reg) (h : s.pc.toNat < 254) :
      Effect (.call (regByte r)) s
        ((s.push (BitVec.ofNat 8 (s.pc.toNat + 2))).jump ((s.push (BitVec.ofNat 8 (s.pc.toNat + 2))).reg r))
  | callDataRange (s : State) (r : Reg) (h : 254 ≤ s.pc.toNat) :
      Effect (.call (regByte r)) s (s.raise (.dataRange s.pc (BitVec.ofNat 9 (s.pc.toNat + 2))))
  | ret (s : State) : Effect .ret s (s.spUp.jump s.top)
  | jmp (s : State) (r : Reg) : Effect (.jmp (regByte r)) s (s.jump (s.reg r))
  | jeqTaken (s : State) (r : Reg) (h : s.eq = true) : Effect (.jeq (regByte r)) s (s.jump (s.reg r))
  | jeqNot (s : State) (r : Reg) (h : s.eq = false) : Effect (.jeq (regByte r)) s (s.advance 2)
  | jneTaken (s : State) (r : Reg) (h : s.eq = false) : Effect (.jne (regByte r)) s (s.jump (s.reg r))
  | jneNot (s : State) (r : Reg) (h : s.eq = true) : Effect (.jne (regByte r)) s (s.advance 2)
  | int (s : State) (r : Reg) : Effect (.int (regByte r)) s (s.advance 2)
  | iret (s : State) : Effect .iret s s.restoreFrame
  | illegalFirst (s : State) (i : Instr) (b : Byte) (rest : List Byte) (ho : i.operands = b :: rest)
      (hb : 8 ≤ b.toNat) (hw : ¬ i.WellFormed) : Effect i s (s.raise (.illegalOperand (s.pc + 1) b))
  | illegalSecond (s : State) (i : Instr) (a b : Byte) (ho : i.operands = [a, b]) (hb : 8 ≤ b.toNat)
      (hw : ¬ i.WellFormed) : Effect i s (s.raise (.illegalOperand (s.pc + 2) b))

theorem isRegByte_false {b : Byte} (h : 8 ≤ b.toNat) : isRegByte b = false :=
  decide_eq_false (Nat.not_lt.mpr h)

/-- Format R: an effect at every register, and ILLEGAL_OPERAND otherwise. -/
theorem effect_of_withReg {i : Instr} {s t : State} {b : Byte} {rest : List Byte} {effect : Reg → Result}
    (h : withReg s b effect = .next t) (ho : i.operands = b :: rest) (hw : isRegByte b = false → ¬ i.WellFormed)
    (he : ∀ r, b = regByte r → effect r = .next t → Effect i s t) : Effect i s t := by
  obtain ⟨r, hr, h'⟩ | ⟨hb, ht⟩ := withReg_cases h
  · exact he r hr h'
  · exact ht ▸ .illegalFirst s i b rest ho hb (hw (isRegByte_false hb))

/-- Format RR: an effect at every two registers, and ILLEGAL_OPERAND otherwise. -/
theorem effect_of_withRegs {i : Instr} {s t : State} {a b : Byte} {effect : Reg → Reg → Result}
    (h : withRegs s a b effect = .next t) (ho : i.operands = [a, b]) (hw : i.wf = (isRegByte a && isRegByte b))
    (he : ∀ ra rb, a = regByte ra → b = regByte rb → effect ra rb = .next t → Effect i s t) : Effect i s t := by
  obtain ⟨ra, rb, ha, hb, h'⟩ | ⟨hb, ht⟩ | ⟨hb, ht⟩ := withRegs_cases h
  · exact he ra rb ha hb h'
  · exact ht ▸ .illegalFirst s i a [b] ho hb (by simp [Instr.WellFormed, hw, isRegByte_false hb])
  · exact ht ▸ .illegalSecond s i a b ho hb (by simp [Instr.WellFormed, hw, isRegByte_false hb])

/-- Every meaning, inverted at once: what an instruction answers is one of its effects. -/
theorem exec_effect {i : Instr} {s t : State} (h : exec i s = .next t) : Effect i s t := by
  cases i with
  | hlt => cases h; exact .hlt s
  | ret => cases h; exact .ret s
  | iret => exact Host.Outcome.next.inj ((exec_iret s).symm.trans h) ▸ .iret s
  | ldi r imm =>
    exact effect_of_withReg h rfl (fun hb => by simp [Instr.wf, hb]) fun q hq he => by subst hq; cases he; exact .ldi s q imm
  | prn r =>
    exact effect_of_withReg h rfl (fun hb => by simp [Instr.wf, hb]) fun q hq he => by subst hq; cases he; exact .prn s q
  | pra r =>
    exact effect_of_withReg h rfl (fun hb => by simp [Instr.wf, hb]) fun q hq he => by subst hq; cases he; exact .pra s q
  | push r =>
    exact effect_of_withReg h rfl (fun hb => by simp [Instr.wf, hb]) fun q hq he => by subst hq; cases he; exact .push s q
  | pop r =>
    exact effect_of_withReg h rfl (fun hb => by simp [Instr.wf, hb]) fun q hq he => by subst hq; cases he; exact .pop s q
  | jmp r =>
    exact effect_of_withReg h rfl (fun hb => by simp [Instr.wf, hb]) fun q hq he => by subst hq; cases he; exact .jmp s q
  | int r =>
    exact effect_of_withReg h rfl (fun hb => by simp [Instr.wf, hb]) fun q hq he => by subst hq; cases he; exact .int s q
  | call r =>
    refine effect_of_withReg h rfl (fun hb => by simp [Instr.wf, hb]) fun q hq he => ?_
    subst hq
    unfold State.retAddr at he
    by_cases hp : 256 ≤ s.pc.toNat + 2
    · rw [if_pos hp] at he; cases he; exact .callDataRange s q (by omega)
    · rw [if_neg hp] at he; cases he; exact .call s q (by omega)
  | jeq r =>
    refine effect_of_withReg h rfl (fun hb => by simp [Instr.wf, hb]) fun q hq he => ?_
    subst hq
    cases heq : s.eq <;> simp only [heq, Bool.false_eq_true, if_false, if_true] at he <;> cases he
    · exact .jeqNot s q heq
    · exact .jeqTaken s q heq
  | jne r =>
    refine effect_of_withReg h rfl (fun hb => by simp [Instr.wf, hb]) fun q hq he => ?_
    subst hq
    cases heq : s.eq <;> simp only [heq, Bool.false_eq_true, if_false, if_true] at he <;> cases he
    · exact .jneTaken s q heq
    · exact .jneNot s q heq
  | add a b =>
    exact effect_of_withRegs h rfl rfl fun p q hp hq he => by subst hp hq; cases he; exact .add s p q
  | mul a b =>
    exact effect_of_withRegs h rfl rfl fun p q hp hq he => by subst hp hq; cases he; exact .mul s p q
  | st a b =>
    exact effect_of_withRegs h rfl rfl fun p q hp hq he => by subst hp hq; cases he; exact .st s p q
  | cmp a b =>
    exact effect_of_withRegs h rfl rfl fun p q hp hq he => by subst hp hq; cases he; exact .cmp s p q

/-- A format R handler answers a next state if its effect does. -/
theorem withReg_next {s : State} {b : Byte} {effect : Reg → Result} (h : ∀ r, ∃ t, effect r = .next t) :
    ∃ t, withReg s b effect = .next t := by
  unfold withReg
  split
  · exact ⟨_, rfl⟩
  · exact h _

/-- A format RR handler answers a next state if its effect does. -/
theorem withRegs_next {s : State} {a b : Byte} {effect : Reg → Reg → Result}
    (h : ∀ ra rb, ∃ t, effect ra rb = .next t) : ∃ t, withRegs s a b effect = .next t := by
  unfold withRegs
  split
  · exact ⟨_, rfl⟩
  · split
    · exact ⟨_, rfl⟩
    · exact h _ _

end Sys2Proof.Machine
end

