-- ==== Sys2Proof/Laws/PerInstr.lean ====
section
/-! SUPPORT. Statements about every instruction as syntax, one lemma per constructor. -/

namespace Sys2Proof.Laws.EncodedWidth

/-- The bytes of an instruction are as many as its opcode alone says, under every opcode map (R80, R93). -/
def Statement (i : Instr) : Prop := ∀ opc : OpcodeMap, (encode opc i).length = i.mnemonic.width

theorem hlt : Statement .hlt := fun _ => rfl
theorem ldi (r imm : Byte) : Statement (.ldi r imm) := fun _ => rfl
theorem add (a b : Byte) : Statement (.add a b) := fun _ => rfl
theorem mul (a b : Byte) : Statement (.mul a b) := fun _ => rfl
theorem prn (r : Byte) : Statement (.prn r) := fun _ => rfl
theorem pra (r : Byte) : Statement (.pra r) := fun _ => rfl
theorem push (r : Byte) : Statement (.push r) := fun _ => rfl
theorem pop (r : Byte) : Statement (.pop r) := fun _ => rfl
theorem call (r : Byte) : Statement (.call r) := fun _ => rfl
theorem ret : Statement .ret := fun _ => rfl
theorem jmp (r : Byte) : Statement (.jmp r) := fun _ => rfl
theorem st (a b : Byte) : Statement (.st a b) := fun _ => rfl
theorem cmp (a b : Byte) : Statement (.cmp a b) := fun _ => rfl
theorem jeq (r : Byte) : Statement (.jeq r) := fun _ => rfl
theorem jne (r : Byte) : Statement (.jne r) := fun _ => rfl
theorem int (r : Byte) : Statement (.int r) := fun _ => rfl
theorem iret : Statement .iret := fun _ => rfl

end Sys2Proof.Laws.EncodedWidth
end

