-- ==== Sys2Proof/Laws/Step.lean ====
section
/-! SUPPORT. What a tick can do, said once: every claim about the step is derived from these. -/

namespace Sys2Proof.Machine

/-- A stopped engine does nothing; a running one samples the requests and does a cycle (R100). -/
theorem tick_running {opc : OpcodeMap} {s : State} (h : s.run = .running) : tick opc s = cycle opc s.sampleIrq := by
  simp [tick, h]

theorem tick_stopped {opc : OpcodeMap} {s : State} (h : s.run ≠ .running) : tick opc s = .next s := by
  unfold tick
  cases hr : s.run <;> simp_all

theorem cycle_taken {opc : OpcodeMap} {s : State} {i : Line} (h : s.takenLine = some i) :
    cycle opc s = interruptEntry i s := by
  simp [cycle, h]

theorem cycle_fetches {opc : OpcodeMap} {s : State} (h : s.takenLine = none) : cycle opc s = fetchExecute opc s := by
  simp [cycle, h]

/-- The window of a state that can fetch starts with the opcode byte. -/
theorem window_cons {s : State} (h : s.pc.toNat < 256) :
    s.window = s.mem.read s.pc.toNat :: readWindow s 2 (s.pc.toNat + 1) :=
  readWindow_succ s 2 h

theorem window_nil {s : State} (h : 256 ≤ s.pc.toNat) : s.window = [] :=
  readWindow_beyond s 3 h

theorem window_length (s : State) : s.window.length = min 3 (256 - s.pc.toNat) :=
  readWindow_length s 3 s.pc.toNat

/-- The width of an instruction is its number of bytes (R80). -/
theorem operands_length (i : Instr) : i.operands.length + 1 = i.mnemonic.width := by
  cases i <;> rfl

/-- Steps 2 to 4 of a cycle, inverted (R104 to R106): the bytes at `pc` decode to an instruction that lies below 256 and
is executed with its opcode in `ir`; or there is no byte at `pc`; or the byte has no handler; or the instruction does
not fit below 256, and the address beyond is 256. -/
theorem fetchExecute_cases {opc : OpcodeMap} {s t : State} (h : fetchExecute opc s = .next t) :
    (∃ i rest, decode opc s.window = .ok (i, rest) ∧ s.mem.read s.pc.toNat = opc i.mnemonic ∧
      s.pc.toNat + i.mnemonic.width ≤ 256 ∧ exec i s.fetched = .next t) ∨
    (256 ≤ s.pc.toNat ∧ t = s.raise (.memRange s.pc)) ∨
    (s.pc.toNat < 256 ∧ lookup opc (s.mem.read s.pc.toNat) = none ∧
      t = s.fetched.raise (.invalidOpcode s.pc (s.mem.read s.pc.toNat))) ∨
    (∃ m, s.pc.toNat < 256 ∧ lookup opc (s.mem.read s.pc.toNat) = some m ∧ 256 < s.pc.toNat + m.width ∧
      t = s.fetched.raise (.memRange 256)) := by
  unfold fetchExecute at h
  split at h
  · rename_i i rest hd
    obtain ⟨op, bs, hw, hop, hb⟩ := decode_ok hd
    have hlen := window_length s
    have hwid := operands_length i
    have hne : s.pc.toNat < 256 := by
      by_contra hc
      rw [window_nil (Nat.le_of_not_lt hc)] at hw
      cases hw
    refine .inl ⟨i, rest, hd, ?_, ?_, h⟩
    · rw [window_cons hne] at hw
      rw [hop]
      exact (List.cons.inj hw).1
    · rw [hw, hb] at hlen
      simp only [List.length_cons, List.length_append] at hlen
      omega
  · rename_i e hd
    have ht : s.undecoded e = t := by cases h; rfl
    subst ht
    obtain ⟨hw, rfl⟩ | ⟨op, bs, hw, hl, rfl⟩ | ⟨op, bs, m, hw, hl, rfl, hm⟩ := decode_error hd
    · refine .inr (.inl ⟨?_, rfl⟩)
      by_contra hc
      rw [window_cons (Nat.lt_of_not_le hc)] at hw
      cases hw
    all_goals
      have hne : s.pc.toNat < 256 := by
        by_contra hc
        rw [window_nil (Nat.le_of_not_lt hc)] at hw
        cases hw
      have hop : s.mem.read s.pc.toNat = op := by
        rw [window_cons hne] at hw
        exact (List.cons.inj hw).1
    · exact .inr (.inr (.inl ⟨hne, hop ▸ hl, by rw [hop]; rfl⟩))
    · refine .inr (.inr (.inr ⟨m, hne, hop ▸ hl, ?_, ?_⟩))
      · have hlen := window_length s
        have hwid : m.width ≤ 3 := by cases m <;> decide
        omega
      · have hlen := window_length s
        have hwid : m.width ≤ 3 := by cases m <;> decide
        have ha : s.pc + BitVec.ofNat 9 s.window.length = 256 := by
          apply BitVec.eq_of_toNat_eq
          rw [BitVec.toNat_add, BitVec.toNat_ofNat, show (256 : Pc).toNat = 256 from rfl]
          omega
        simp only [State.undecoded, ha]

/-- A tick, inverted (R100, R101). -/
theorem tick_cases {opc : OpcodeMap} {s t : State} (h : tick opc s = .next t) :
    (s.run ≠ .running ∧ t = s) ∨
    (∃ i, s.run = .running ∧ s.sampleIrq.takenLine = some i ∧ interruptEntry i s.sampleIrq = .next t) ∨
    (s.Fetches ∧ fetchExecute opc s.sampleIrq = .next t) := by
  by_cases hr : s.run = .running
  · rw [tick_running hr] at h
    cases hl : s.sampleIrq.takenLine with
    | none => exact .inr (.inr ⟨⟨hr, hl⟩, by rwa [cycle_fetches hl] at h⟩)
    | some i => exact .inr (.inl ⟨i, hr, rfl, by rwa [cycle_taken hl] at h⟩)
  · rw [tick_stopped hr] at h
    exact .inl ⟨hr, by cases h; rfl⟩

/-- A tick that fetches is the fetch, decode and execute of the sampled state. -/
theorem step_fetches {s : State} (h : s.Fetches) : step s = fetchExecute defaultOpc s.sampleIrq := by
  unfold step
  rw [tick_running h.1, cycle_fetches h.2]

/-- The bytes at `pc` depend on the memory and `pc` alone. -/
theorem readWindow_congr {s t : State} (h : t.mem = s.mem) (n a : Nat) : readWindow t n a = readWindow s n a := by
  induction n generalizing a with
  | zero => rfl
  | succ n ih => simp [readWindow, memRead, h, ih]

theorem window_sampleIrq (s : State) : s.sampleIrq.window = s.window := by
  simp [State.window, readWindow_congr (s.sampleIrq_mem)]

/-- A byte of the window is the byte of memory at its address. -/
theorem readWindow_getElem {s : State} {n a k : Nat} {b : Byte} (h : (readWindow s n a)[k]? = some b) :
    s.mem.read (a + k) = b := by
  induction n generalizing a k with
  | zero => simp [readWindow] at h
  | succ n ih =>
    by_cases ha : a < 256
    · rw [readWindow_succ s n ha] at h
      cases k with
      | zero => simpa using h
      | succ k => rw [← ih (by simpa using h), Nat.add_right_comm, Nat.add_assoc]
    · rw [readWindow_beyond s _ (Nat.le_of_not_lt ha)] at h
      simp at h

/-- Everything a step can do: nothing, in a stopped engine; an interrupt entry; the effect of the instruction whose bytes
lie at `pc`, on the sampled state with its opcode in `ir`; or a fault of the fetch, the decode or the operand fetch. -/
theorem step_cases {s t : State} (h : step s = .next t) :
    (s.run ≠ .running ∧ t = s) ∨
    (∃ i, s.run = .running ∧ s.sampleIrq.takenLine = some i ∧ interruptEntry i s.sampleIrq = .next t) ∨
    (∃ i, s.FetchesOp i.mnemonic ∧ s.pc.toNat + i.mnemonic.width ≤ 256 ∧
      (∀ k b, i.operands[k]? = some b → s.mem.read (s.pc.toNat + 1 + k) = b) ∧ Effect i s.sampleIrq.fetched t) ∨
    (s.Fetches ∧ 256 ≤ s.pc.toNat ∧ t = s.sampleIrq.raise (.memRange s.pc)) ∨
    (s.Fetches ∧ s.pc.toNat < 256 ∧
      t = s.sampleIrq.fetched.raise (.invalidOpcode s.pc (s.mem.read s.pc.toNat))) ∨
    (s.Fetches ∧ s.pc.toNat < 256 ∧ t = s.sampleIrq.fetched.raise (.memRange 256)) := by
  obtain hs | hi | ⟨hf, h⟩ := tick_cases h
  · exact .inl hs
  · exact .inr (.inl hi)
  · obtain ⟨i, rest, hd, ho, hw, he⟩ | ⟨hp, ht⟩ | ⟨hp, -, ht⟩ | ⟨m, hp, -, -, ht⟩ := fetchExecute_cases h
    · simp only [State.sampleIrq_mem, State.sampleIrq_pc] at ho hw
      have hwid : 1 ≤ i.mnemonic.width := by cases i.mnemonic <;> decide
      refine .inr (.inr (.inl ⟨i, ⟨hf, by omega, ho⟩, hw, fun k b hk => ?_, exec_effect he⟩))
      obtain ⟨op, bs, hwin, -, hbs⟩ := decode_ok hd
      rw [window_sampleIrq, window_cons (by omega)] at hwin
      apply readWindow_getElem (n := 2)
      rw [(List.cons.inj hwin).2, hbs, List.getElem?_append, if_pos (List.getElem?_eq_some_iff.mp hk).1, hk]
    · exact .inr (.inr (.inr (.inl ⟨hf, by simpa using hp, by simpa using ht⟩)))
    · exact .inr (.inr (.inr (.inr (.inl ⟨hf, by simpa using hp, by simpa using ht⟩))))
    · exact .inr (.inr (.inr (.inr (.inr ⟨hf, by simpa using hp, ht⟩))))

end Sys2Proof.Machine
end

