-- ==== Sys2Proof/Tests/Slice0.lean ====
section
/-! SUPPORT. Tests of the model: encodings, one-step vectors of 95_test_vectors.md, and a witness for the hypotheses of
each statement that has some. Every expected value is from spec/ (the row is named), none from the model. -/

namespace Sys2Proof.Tests

open Sys2Proof.Machine

/-! ### Building small states -/

/-- Registers set one after the other. -/
def withRegsSet : State → List (Reg × Byte) → State
  | s, [] => s
  | s, (r, v) :: rest => withRegsSet (s.setReg r v) rest

/-- The reset state with `pc`, the bytes there and some registers. -/
def start (pc : Nat) (bytes : List Byte) (regs : List (Reg × Byte)) : State :=
  withRegsSet { State.reset with pc := BitVec.ofNat 9 pc, mem := Memory.writeList [] pc bytes } regs

/-- The step answers a next state for which `f` holds. -/
def after (s : State) (f : State → Bool) : Bool :=
  match step s with
  | .next t => f t
  | .fault _ => false
  | .refused _ => false

/-! ### Encodings: every constructor, from R81 and R88 -/

theorem test_decode_hlt : decode defaultOpc [0x1B] = .ok (.hlt, []) := rfl
theorem test_decode_ldi : decode defaultOpc [0x04, 0x05, 0x2A] = .ok (.ldi 5 42, []) := rfl
theorem test_decode_add : decode defaultOpc [0x0C, 0x01, 0x02] = .ok (.add 1 2, []) := rfl
theorem test_decode_mul : decode defaultOpc [0x05, 0x01, 0x02] = .ok (.mul 1 2, []) := rfl
theorem test_decode_prn : decode defaultOpc [0x46, 0x03] = .ok (.prn 3, []) := rfl
theorem test_decode_pra : decode defaultOpc [0x07, 0x03] = .ok (.pra 3, []) := rfl
theorem test_decode_push : decode defaultOpc [0x0A, 0x04] = .ok (.push 4, []) := rfl
theorem test_decode_pop : decode defaultOpc [0x0B, 0x04] = .ok (.pop 4, []) := rfl
theorem test_decode_call : decode defaultOpc [0x0F, 0x06] = .ok (.call 6, []) := rfl
theorem test_decode_ret : decode defaultOpc [0x10, 0x99] = .ok (.ret, [0x99]) := rfl
theorem test_decode_jmp : decode defaultOpc [0x11, 0x07] = .ok (.jmp 7, []) := rfl
theorem test_decode_st : decode defaultOpc [0x09, 0x01, 0x02] = .ok (.st 1 2, []) := rfl
theorem test_decode_cmp : decode defaultOpc [0x16, 0x01, 0x02] = .ok (.cmp 1 2, []) := rfl
theorem test_decode_jeq : decode defaultOpc [0x13, 0x02] = .ok (.jeq 2, []) := rfl
theorem test_decode_jne : decode defaultOpc [0x14, 0x02] = .ok (.jne 2, []) := rfl
theorem test_decode_int : decode defaultOpc [0x19, 0x00] = .ok (.int 0, []) := rfl
theorem test_decode_iret : decode defaultOpc [0x1A] = .ok (.iret, []) := rfl

/-- S7, R90: neither a byte of ones nor one of zeros is an instruction. -/
theorem test_decode_invalid : decode defaultOpc [0xFF] = .error (.invalidOpcode 0xFF) ∧
    decode defaultOpc [0x00] = .error (.invalidOpcode 0x00) := ⟨rfl, rfl⟩

/-- R106: an operand byte that is not there, the first or the second; and no byte at all. -/
theorem test_decode_missing : decode defaultOpc [0x0C] = .error (.missingOperand 0x0C 1) ∧
    decode defaultOpc [0x0C, 0x01] = .error (.missingOperand 0x0C 2) ∧ decode defaultOpc [] = .error .noOpcode :=
  ⟨rfl, rfl, rfl⟩

/-- The opcode table writes byte 0 as the most significant: LDI R0, 8; PRN R0; HLT of S6 as table numbers. -/
theorem test_table_word : decodeTableWord 24 0x040008 = some (.ldi 0 8) ∧ decodeTableWord 16 0x4600 = some (.prn 0) ∧
    decodeTableWord 8 0x1B = some .hlt ∧ decodeTableWord 8 0x00 = none := ⟨rfl, rfl, rfl, rfl⟩

/-- R83, R91: every register operand byte above 7 is refused by `WellFormed`, in either place. -/
theorem test_wf_refuses : ∀ i ∈ ([.ldi 8 0, .add 8 0, .add 0 8, .mul 9 0, .mul 0 9, .prn 8, .pra 0x80, .push 8, .pop 8,
    .call 8, .jmp 8, .st 8 0, .st 0 0xFF, .cmp 8 0, .cmp 0 8, .jeq 8, .jne 8, .int 8] : List Instr),
    ¬ i.WellFormed := by decide

/-- R84: an immediate of any value is well formed. -/
theorem test_wf_accepts : ∀ i ∈ ([.hlt, .ret, .iret, .ldi 7 0xFF, .add 7 7, .int 0] : List Instr), i.WellFormed := by
  decide

/-! ### One step of each instruction, from 95_test_vectors.md -/

/-- V8, first row. -/
theorem test_step_hlt : after (start 5 [0x1B] []) (fun t => t.run == .halted && t.pc == 6 && t.ir == 0x1B) = true := by
  decide
/-- V1: `04 00 08` at 000. -/
theorem test_step_ldi : after (start 0 [0x04, 0x00, 0x08] []) (fun t => t.reg 0 == 8 && t.pc == 3) = true := by decide
/-- V1: the last byte at 0xFF leaves `pc` at 0x100. -/
theorem test_step_ldi_top : after (start 0xFD [0x04, 0x00, 0x01] []) (fun t => t.reg 0 == 1 && t.pc == 0x100) = true := by
  decide
/-- V2: 200 + 100. -/
theorem test_step_add : after (start 0 [0x0C, 0x00, 0x01] [(0, 0xC8), (1, 0x64)])
    (fun t => t.reg 0 == 0x2C && t.reg 1 == 0x64 && t.pc == 3) = true := by decide
/-- V2: the same register twice. -/
theorem test_step_add_same : after (start 0 [0x0C, 0x02, 0x02] [(2, 0x90)]) (fun t => t.reg 2 == 0x20) = true := by decide
/-- V3: 255 * 255. -/
theorem test_step_mul : after (start 0 [0x05, 0x00, 0x01] [(0, 0xFF), (1, 0xFF)]) (fun t => t.reg 0 == 1) = true := by
  decide
/-- V4: equal, and not equal. -/
theorem test_step_cmp : after (start 0 [0x16, 0x00, 0x01] [(0, 5), (1, 5)]) (fun t => t.eq && t.pc == 3) = true ∧
    after (start 0 [0x16, 0x00, 0x01] [(0, 0xFF), (1, 1)]) (fun t => !t.eq) = true := by decide
/-- V5, first row. -/
theorem test_step_prn : after (start 3 [0x46, 0x00] [(0, 8)]) (fun t => t.out == [⟨.dec, 8⟩] && t.pc == 5) = true := by
  decide
/-- V5: `A`. -/
theorem test_step_pra : after (start 0 [0x07, 0x03] [(3, 0x41)]) (fun t => t.out == [⟨.chr, 0x41⟩] && t.pc == 2) = true := by
  decide
/-- V6: the wrap of the stack pointer. -/
theorem test_step_push_wrap : after (start 0x10 [0x0A, 0x01] [(1, 0xAB), (7, 0)])
    (fun t => t.reg 7 == 0xFF && t.mem.read 0xFF == 0xAB && t.pc == 0x12) = true := by decide
/-- V6: PUSH R7 stores the decremented value. -/
theorem test_step_push_sp : after (start 0 [0x0A, 0x07] []) (fun t => t.reg 7 == 0xF7 && t.mem.read 0xF7 == 0xF7) = true := by
  decide
/-- V6: POP wraps, and keeps the byte in memory. -/
theorem test_step_pop_wrap :
    after { start 0 [0x0B, 0x00] [(7, 0xFF)] with mem := Memory.writeList (Memory.writeList [] 0 [0x0B, 0x00]) 0xFF [0x77] }
      (fun t => t.reg 0 == 0x77 && t.reg 7 == 0 && t.mem.read 0xFF == 0x77) = true := by decide
/-- V6: POP R7 leaves the popped byte plus 1. -/
theorem test_step_pop_sp :
    after { start 0 [] [(7, 0xF7)] with mem := Memory.writeList (Memory.writeList [] 0 [0x0B, 0x07]) 0xF7 [0x30] }
      (fun t => t.reg 7 == 0x31) = true := by decide
/-- V6: ST into the vector table. -/
theorem test_step_st : after (start 0 [0x09, 0x00, 0x01] [(0, 0xF8), (1, 0x20)])
    (fun t => t.mem.read 0xF8 == 0x20 && t.pc == 3 && t.reg 0 == 0xF8) = true := by decide
/-- V7, first row. -/
theorem test_step_call : after (start 6 [0x0F, 0x01] [(1, 0x14)])
    (fun t => t.reg 7 == 0xF7 && t.mem.read 0xF7 == 8 && t.pc == 0x14) = true := by decide
/-- V7: CALL R7 reads its target after the push. -/
theorem test_step_call_sp : after (start 0 [0x0F, 0x07] []) (fun t => t.pc == 0xF7 && t.mem.read 0xF7 == 2) = true := by
  decide
/-- V7: RET. -/
theorem test_step_ret :
    after { start 0x14 [] [(7, 0xF7)] with mem := Memory.writeList (Memory.writeList [] 0x14 [0x10]) 0xF7 [0x08] }
      (fun t => t.pc == 8 && t.reg 7 == 0xF8) = true := by decide
/-- V7: a jump to 0xFF. -/
theorem test_step_jmp : after (start 0x10 [0x11, 0x00] [(0, 0xFF)]) (fun t => t.pc == 0xFF) = true := by decide
/-- V7: JEQ taken and not. -/
theorem test_step_jeq : after ((start 0x10 [0x13, 0x03] [(3, 0x20)]).setEq true) (fun t => t.pc == 0x20) = true ∧
    after (start 0x10 [0x13, 0x03] [(3, 0x20)]) (fun t => t.pc == 0x12) = true := by decide
/-- V7: JNE taken and not. -/
theorem test_step_jne : after (start 0x12 [0x14, 0x03] [(3, 0x0C)]) (fun t => t.pc == 0x0C) = true ∧
    after ((start 0x12 [0x14, 0x03] [(3, 0x0C)]).setEq true) (fun t => t.pc == 0x14) = true := by decide
/-- V8: INT sets no pending bit. -/
theorem test_step_int : after (start 0x10 [0x19, 0x00] [(5, 1)]) (fun t => t.pc == 0x12 && t.reg 6 == 0 && t.ie) = true := by
  decide

/-- V8: IRET whose first pop redirects the rest. -/
def iretState : State :=
  { start 0x40 [] [(7, 0xE0)] with
    mem := Memory.writeList (Memory.writeList (Memory.writeList [] 0x40 [0x1A]) 0xE0 [0xEF]) 0xF0
      [0x06, 0x05, 0x04, 0x03, 0x02, 0x01, 0x00, 0x70] }
theorem test_step_iret : after iretState (fun t => t.reg 7 == 0xF8 && t.reg 6 == 6 && t.reg 1 == 1 && t.reg 0 == 0 &&
    t.pc == 0x70 && t.ie) = true := by decide

/-! ### Faults and interrupts -/

/-- V1 and V2: ILLEGAL_OPERAND names the first bad byte; V10: operand range comes before operand check. -/
theorem test_fault_operand : after (start 0 [0x04, 0x08, 0x01] []) (fun t => t.run == .faulted && t.fcause == 3 &&
      t.faddr == 1 && t.fval == 8 && t.pc == 0 && t.ir == 4) = true ∧
    after (start 0 [0x0C, 0x09, 0x0A] []) (fun t => t.fcause == 3 && t.faddr == 1 && t.fval == 9) = true ∧
    after (start 0 [0x0C, 0x00, 0x09] []) (fun t => t.fcause == 3 && t.faddr == 2 && t.fval == 9) = true ∧
    after (start 0xFE [0x0C, 0x09] []) (fun t => t.fcause == 2 && t.faddr == 0x100) = true := by decide
/-- V7: CALL at 0xFE, the only `pc` where a tick reaches its DATA_RANGE; at 0xFF it is MEM_RANGE (R176). -/
theorem test_fault_call : after (start 0xFE [0x0F, 0x00] []) (fun t => t.run == .faulted && t.fcause == 4 &&
    t.faddr == 0xFE && t.fval == 0x100 && t.reg 7 == 0xF8) = true ∧
    after (start 0xFF [0x0F] []) (fun t => t.run == .faulted && t.fcause == 2 && t.faddr == 0x100 && t.fval == 0 &&
      t.pc == 0xFF && t.reg 7 == 0xF8) = true := by decide
/-- V10: the invalid opcodes, and the fetch at 256. -/
theorem test_fault_fetch : after (start 0 [0xFF] []) (fun t => t.fcause == 1 && t.faddr == 0 && t.fval == 0xFF &&
      t.ir == 0xFF && t.pc == 0) = true ∧
    after (start 0x100 [] []) (fun t => t.fcause == 2 && t.faddr == 0x100 && t.fval == 0 && t.ir == 0) = true := by decide

/-- V9, second row: two lines pending, the lower is taken. -/
def twoLines : State :=
  { start 0x10 [] [(5, 0x0A), (6, 0x0A)] with mem := Memory.writeList (Memory.writeList [] 0xF9 [0x40]) 0xFB [0x50] }
theorem test_entry_lowest : after twoLines (fun t => t.reg 6 == 8 && t.reg 7 == 0xEF && t.pc == 0x40 && !t.ie &&
    t.mem.read 0xF7 == 0x12 && t.mem.read 0xF1 == 0x0A && t.mem.read 0xF0 == 8 && t.mem.read 0xEF == 0xEF) = true := by
  decide
/-- V9: the entry at 0xFE is DATA_RANGE and changes nothing. -/
theorem test_entry_fault : after (start 0xFE [] [(5, 1), (6, 1)]) (fun t => t.fcause == 4 && t.faddr == 0xFE &&
    t.fval == 0x100 && t.ie && t.reg 6 == 1 && t.reg 7 == 0xF8) = true := by decide
/-- V9: with `ie = 0`, or no line both pending and unmasked, the cycle fetches. -/
theorem test_no_entry : after ((start 0x10 [0x1B] [(5, 0xFF), (6, 0xFF)]).setIe false) (fun t => t.run == .halted) = true ∧
    after (start 0x10 [0x1B] [(5, 0xF0), (6, 0x0F)]) (fun t => t.run == .halted) = true := by decide
/-- P4, the boundary before cycle 7: the timer's request (line 0) is taken by the very next cycle, and `ir` stays. -/
def waiting : State := { start 0x0F [0x11, 0x02] [(0, 0xF8), (1, 0x20), (2, 0x0F), (5, 1)] with
  mem := Memory.writeList (Memory.writeList [] 0x0F [0x11, 0x02]) 0xF8 [0x20], ir := 0x11, irqIn := [1] }
theorem test_request_taken : after waiting (fun t => !t.ie && t.reg 6 == 0 && t.mem.read 0xF7 == 0x11 &&
    t.mem.read 0xF6 == 0xF8 && t.reg 7 == 0xEF && t.pc == 0x20 && t.ir == 0x11 && t.irqIn == []) = true := by decide

/-! ### Every row of the opcode table runs as the first instruction after reset -/

theorem test_first_instruction : after (State.reset.withFetchWord 24 0x040000) (fun t => t.pc == 3) = true ∧
    after (State.reset.withFetchWord 16 0x4600) (fun t => t.pc == 2 && t.out == [⟨.dec, 0⟩]) = true ∧
    after (State.reset.withFetchWord 8 0x1B) (fun t => t.run == .halted) = true ∧
    after (State.reset.withFetchWord 8 0x1A) (fun t => t.ie && t.ir == 0x1A) = true := by decide

/-! ### Witnesses: for each statement with hypotheses, a state and operands that meet them together -/

theorem exists_of_after {s : State} {f : State → Bool} (h : after s f = true) : ∃ t, step s = .next t ∧ f t = true := by
  unfold after at h
  split at h
  · exact ⟨_, ‹_›, h⟩
  · cases h
  · cases h

/-- `OperandBeyondMemoryFaults`, at the last address, for every instruction that has operands. -/
theorem witness_operand_beyond_FF (m : Mnemonic) (h : 2 ≤ m.width) :
    (start 0xFF [defaultOpc m] []).FetchesOp m ∧ 256 < (start 0xFF [defaultOpc m] []).pc.toNat + m.width := by
  cases m <;> first | exact ⟨⟨⟨rfl, rfl⟩, by decide, rfl⟩, by decide⟩ | exact absurd h (by decide)

/-- The same, one address lower, for the 3-byte instructions: byte 1 is there and byte 2 is not. -/
theorem witness_operand_beyond_FE (m : Mnemonic) (h : m.width = 3) :
    (start 0xFE [defaultOpc m, 9] []).FetchesOp m ∧ 256 < (start 0xFE [defaultOpc m, 9] []).pc.toNat + m.width := by
  cases m <;> first | exact ⟨⟨⟨rfl, rfl⟩, by decide, rfl⟩, by decide⟩ | exact absurd h (by decide)

/-- `OperandFaultsR` and `OperandFaultsRR`: the least and the greatest byte above 7. -/
theorem witness_illegal_byte : 8 ≤ (8 : Byte).toNat ∧ 8 ≤ (0xFF : Byte).toNat := by decide

/-- `JeqJumpsWhenEqual`, `JneJumpsWhenNotEqual`: both values of `eq`. -/
theorem witness_eq_both : State.reset.eq = false ∧ (State.reset.setEq true).eq = true := ⟨rfl, rfl⟩

/-- `CallPushesTheReturnAddress`, `CallThenRetReturns`, `InterruptEntrySavesTheFrame`: the last `pc` whose return address
is a byte, and the first and last of the others. -/
theorem witness_return_address : (State.reset.setPc 253).pc.toNat + 2 < 256 ∧
    ((State.reset.setPc 254).pc.toNat ≤ 256 ∧ 256 ≤ (State.reset.setPc 254).pc.toNat + 2) ∧
    ((State.reset.setPc 256).pc.toNat ≤ 256 ∧ 256 ≤ (State.reset.setPc 256).pc.toNat + 2) := by decide

/-- `CallPushesTheReturnAddress`, the clause of the tick at 0xFE, with the greatest register. -/
theorem witness_call_at_FE : let s := start 0xFE [0x0F, 0x07] []
    s.FetchesOp .call ∧ s.pc = 0xFE ∧ s.mem.read 0xFF = regByte 7 := ⟨⟨⟨rfl, rfl⟩, by decide, rfl⟩, rfl, rfl⟩

/-- A map that R89 accepts, other than the default one. -/
def otherOpc : OpcodeMap
  | .add => 0x20
  | .mul => 0x0C
  | m => defaultOpc m

/-- `DispatchTableFollowsTheMap`, `DecodeInvertsEncode`. -/
theorem witness_valid_map : otherOpc.Valid :=
  ⟨by intro m n; cases m <;> cases n <;> decide, rfl, rfl, rfl, by intro m; cases m <;> decide⟩

/-- `EncodeInvertsDecode`: bytes that decode, with a rest. -/
theorem witness_decodes : decode otherOpc [0x20, 0x01, 0x02, 0x1B] = .ok (.add 1 2, [0x1B]) := rfl

/-- `StepRunsTheDecodedInstruction`: at the top of memory, with a request of a masked line sampled. -/
theorem witness_step_runs :
    let s := { start 0xFD [0x04, 0x07, 0xFF] [] with irqIn := [1] }
    s.Fetches ∧ decode defaultOpc s.window = .ok (.ldi 7 0xFF, []) ∧ (Instr.ldi 7 0xFF).WellFormed :=
  ⟨⟨rfl, by decide⟩, rfl, by decide⟩

/-- The same, and the tick's clause of `IllegalOperandsFaultEverywhere`, for an instruction that is not well formed: byte 1
above 7 (V1's row `04 08 01`), and byte 2 at the top of memory. -/
theorem witness_step_illegal : ((start 0 [0x04, 0x08, 0x01] []).Fetches ∧
      decode defaultOpc (start 0 [0x04, 0x08, 0x01] []).window = .ok (.ldi 8 1, []) ∧ ¬ (Instr.ldi 8 1).WellFormed) ∧
    (start 0xFD [0x0C, 0x00, 0xFF] []).Fetches ∧
      decode defaultOpc (start 0xFD [0x0C, 0x00, 0xFF] []).window = .ok (.add 0 0xFF, []) ∧
      ¬ (Instr.add 0 0xFF).WellFormed :=
  ⟨⟨⟨rfl, by decide⟩, rfl, by decide⟩, ⟨rfl, by decide⟩, rfl, by decide⟩

/-- `StoppedEngineIgnoresTicks`: both stopped states. -/
theorem witness_stopped : State.reset.halt.run ≠ .running ∧ (State.reset.raise (.memRange 256)).run ≠ .running := by
  decide

/-- `FetchWritesInstructionRegister`: a step that fetches at the last address, and one at 256. -/
theorem witness_fetch : (∃ t, step (start 0xFF [0x1B] []) = .next t ∧ (t.ir == 0x1B) = true) ∧
    (start 0xFF [0x1B] []).Fetches ∧ (start 0xFF [0x1B] []).pc.toNat < 256 ∧
    (start 0x100 [] []).Fetches ∧ (start 0x100 [] []).pc = 256 :=
  ⟨exists_of_after (by decide), ⟨rfl, rfl⟩, by decide, ⟨rfl, rfl⟩, by decide⟩

/-- `InvalidOpcodeFaults`: the bytes 0x00 and 0xFF, at the ends of memory. -/
theorem witness_invalid : ((start 0 [] []).Fetches ∧ (start 0 [] []).pc.toNat < 256 ∧
      lookup defaultOpc ((start 0 [] []).mem.read 0) = none) ∧
    (start 0xFF [0xFF] []).Fetches ∧ (start 0xFF [0xFF] []).pc.toNat < 256 ∧
      lookup otherOpc ((start 0xFF [0xFF] []).mem.read 0xFF) = none :=
  ⟨⟨⟨rfl, rfl⟩, by decide, by decide⟩, ⟨rfl, rfl⟩, by decide, by decide⟩

/-- `MemReadChecksTheRange`, `MemWriteChangesOneByte`, `LoadedImageLiesFromZero`: both sides of the boundary. -/
theorem witness_range : 256 ≤ 256 ∧ 255 < 256 := by decide

/-- `InstructionsWriteOnlyTheirRegisters`: POP R2 leaves register 1 alone. -/
theorem witness_writes : (Instr.pop 2).WellFormed ∧ (∃ t, exec (.pop 2) State.reset = .next t) ∧
    regByte 1 ∉ (Instr.pop 2).writes := ⟨by decide, ⟨_, rfl⟩, by decide⟩

/-- `OnlyStoresChangeMemory`: a byte changes by an entry (the lowest slot), by PUSH, by CALL and by ST. -/
theorem witness_memory_changes :
    (∃ t, step twoLines = .next t ∧ decide (t.mem.read 0xEF ≠ twoLines.mem.read 0xEF) = true) ∧
    (∃ t, step (start 0 [0x0A, 0x07] []) = .next t ∧
      decide (t.mem.read 0xF7 ≠ (start 0 [0x0A, 0x07] []).mem.read 0xF7) = true) ∧
    (∃ t, step (start 0 [0x0F, 0x00] []) = .next t ∧
      decide (t.mem.read 0xF7 ≠ (start 0 [0x0F, 0x00] []).mem.read 0xF7) = true) ∧
    ∃ t, step (start 0 [0x09, 0x07, 0x07] []) = .next t ∧
      decide (t.mem.read 0xF8 ≠ (start 0 [0x09, 0x07, 0x07] []).mem.read 0xF8) = true :=
  ⟨exists_of_after (by decide), exists_of_after (by decide), exists_of_after (by decide), exists_of_after (by decide)⟩

/-- `StoresAreFetchedNext`: a store to the opcode byte that comes next (V6, last row), a push to its second operand byte,
a call to the byte it pushes. -/
theorem witness_fetched_next :
    (∃ t, exec (.st (regByte 0) (regByte 1)) (start 0x10 [] [(0, 0x13), (1, 0x1B)]) = .next t ∧
      t.pc.toNat + 0 = ((start 0x10 [] [(0, 0x13), (1, 0x1B)]).reg 0).toNat) ∧
    (∃ t, exec (.push (regByte 1)) (start 0xF3 [] [(1, 0x1B)]) = .next t ∧ t.pc.toNat + 2 = (t.reg 7).toNat) ∧
    (start 0 [] []).pc.toNat + 2 < 256 ∧
    ∃ t, exec (.call (regByte 7)) (start 0 [] []) = .next t ∧ t.pc.toNat + 0 = (t.reg 7).toNat :=
  ⟨⟨_, rfl, by decide⟩, ⟨_, rfl, by decide⟩, by decide, ⟨_, rfl, by decide⟩⟩

/-- `OnlyCmpWritesEqual`: CMP of equal registers after reset. -/
theorem witness_equal_changes : ∃ t, step (start 0 [0x16, 0x00, 0x01] []) = .next t ∧
    decide (t.eq ≠ (start 0 [0x16, 0x00, 0x01] []).eq) = true := exists_of_after (by decide)

/-- `OnlyEntryAndIretWriteInterruptsEnabled`: an entry, and an IRET with `ie = 0`. -/
theorem witness_ie_changes : (∃ t, step twoLines = .next t ∧ decide (t.ie ≠ twoLines.ie) = true) ∧
    ∃ t, step (iretState.setIe false) = .next t ∧ decide (t.ie ≠ (iretState.setIe false).ie) = true :=
  ⟨exists_of_after (by decide), exists_of_after (by decide)⟩

/-- `InstructionsDoNotReadHiddenState`: ADD for the first clauses, CMP for the last. -/
theorem witness_hidden : (∃ t, exec (.add 1 2) State.reset = .next t) ∧ (Instr.add 1 2).mnemonic ≠ .jeq ∧
    (Instr.add 1 2).mnemonic ≠ .jne ∧ (Instr.add 1 2).mnemonic ≠ .cmp ∧
    (∃ t, exec (.cmp 1 2) State.reset = .next t) ∧ (Instr.cmp 1 2).mnemonic = .cmp ∧ (Instr.cmp 1 2).WellFormed :=
  ⟨⟨_, rfl⟩, by decide, by decide, by decide, ⟨_, rfl⟩, rfl, by decide⟩

/-- `OnlyFetchWritesInstructionRegister`: an entry, a fetch at 256, and a stopped engine. -/
theorem witness_no_fetch : ((∃ t, step twoLines = .next t ∧ true = true) ∧
      ¬ (twoLines.Fetches ∧ twoLines.pc.toNat < 256)) ∧
    ((∃ t, step (start 0x100 [] []) = .next t ∧ true = true) ∧
      ¬ ((start 0x100 [] []).Fetches ∧ (start 0x100 [] []).pc.toNat < 256)) ∧
    (∃ t, step State.reset.halt = .next t ∧ true = true) ∧
      ¬ (State.reset.halt.Fetches ∧ State.reset.halt.pc.toNat < 256) :=
  ⟨⟨exists_of_after (f := fun _ => true) (by decide), fun h => absurd h.1.2 (by decide)⟩,
    ⟨exists_of_after (f := fun _ => true) (by decide), fun h => absurd h.2 (by decide)⟩,
    exists_of_after (f := fun _ => true) (by decide), fun h => absurd h.1.1 (by decide)⟩

/-- `OnlyHltHalts`. -/
theorem witness_halts : (start 0xFF [0x1B] []).run ≠ .halted ∧
    ∃ t, step (start 0xFF [0x1B] []) = .next t ∧ decide (t.run = .halted) = true :=
  ⟨by decide, exists_of_after (by decide)⟩

/-- `OnlyPrnAndPraEmit`: a step that emits, of either kind. -/
theorem witness_emits : (∃ t, step (start 0 [0x46, 0x07] []) = .next t ∧ decide (t.out ≠ []) = true) ∧
    ∃ t, step (start 0 [0x07, 0x07] []) = .next t ∧ decide (t.out ≠ []) = true :=
  ⟨exists_of_after (by decide), exists_of_after (by decide)⟩

/-- `FaultsArePrecise`: a fault after a fetch, and one at an entry, which does not fetch. -/
theorem witness_faults : ((start 0xFE [0x0F, 0x00] []).run = .running ∧ (start 0xFE [0x0F, 0x00] []).Fetches ∧
      (start 0xFE [0x0F, 0x00] []).pc.toNat < 256 ∧
      ∃ t, step (start 0xFE [0x0F, 0x00] []) = .next t ∧ decide (t.run = .faulted) = true) ∧
    (start 0x100 [] [(5, 1), (6, 1)]).run = .running ∧ ¬ (start 0x100 [] [(5, 1), (6, 1)]).Fetches ∧
      (start 0x100 [] [(5, 1), (6, 1)]).pc.toNat ≤ 256 ∧
      ∃ t, step (start 0x100 [] [(5, 1), (6, 1)]) = .next t ∧ decide (t.run = .faulted) = true :=
  ⟨⟨rfl, ⟨rfl, rfl⟩, by decide, exists_of_after (by decide)⟩, rfl, fun h => absurd h.2 (by decide), by decide,
    exists_of_after (by decide)⟩

/-- `IllegalOperandsFaultEverywhere`: an ill-formed instruction, and the well-formed CALL that faults. -/
theorem witness_illegal_operand : ¬ (Instr.add 0 8).WellFormed ∧ (Instr.call 0).WellFormed ∧
    ∃ t, exec (.call 0) (State.reset.setPc 254) = .next t ∧ t.run = .faulted := ⟨by decide, by decide, _, rfl, rfl⟩

/-- `LowestPendingLineIsTaken`: lines 1 and 3 pending, 1 the least; and both ways not to take one. -/
theorem witness_lowest : (twoLines.run = .running ∧ twoLines.ie = true ∧
      (twoLines.sampleIrq.reg 6 &&& twoLines.sampleIrq.reg 5).getLsbD (1 : Line).val = true ∧
      ∀ j : Line, j < 1 → (twoLines.sampleIrq.reg 6 &&& twoLines.sampleIrq.reg 5).getLsbD j.val = false) ∧
    (twoLines.setIe false).ie = false ∧
    (start 0 [] [(5, 0xF0), (6, 0x0F)]).sampleIrq.reg 6 &&& (start 0 [] [(5, 0xF0), (6, 0x0F)]).sampleIrq.reg 5 = 0 := by
  decide

/-- `IretUndoesInterruptEntry`: the entry of line 1, and the state it leaves as the one IRET finds. -/
theorem witness_undo : twoLines.pc.toNat + 2 < 256 ∧ ∃ t, interruptEntry 1 twoLines = .next t ∧
    t.reg 7 = twoLines.reg 7 - 9 := ⟨by decide, _, rfl, by decide⟩

/-- `RequestsOnlySetPendingBits`: a running state with no request, and one with a request of every line. -/
theorem witness_requests : State.reset.run = .running ∧ State.reset.irqIn = [] ∧
    { State.reset with irqIn := [0xFF] }.irqIn = 0xFF :: [] := ⟨rfl, rfl, rfl⟩

/-- `RequestIsTakenAtOnce`: line 0 requested, and line 7 where line 0 is asked for too. -/
theorem witness_request : (waiting.run = .running ∧ waiting.ie = true ∧ waiting.irqIn = 1 :: [] ∧
      (1 : Byte).getLsbD (0 : Line).val = true ∧ (waiting.reg 5).getLsbD (0 : Line).val = true) ∧
    (0x81 : Byte).getLsbD (7 : Line).val = true := by decide

/-- `WritingStatusRaisesAnInterrupt`: the program P6 after its first instruction, line 2. -/
theorem witness_software_interrupt :
    let s := start 3 [0x04, 0x06, 0x04] [(5, 4)]
    s.run = .running ∧ s.ie = true ∧ s.irqIn = [] ∧ (∃ t, exec (.ldi 6 4) s = .next t) ∧
      (4 &&& s.reg 5).getLsbD (2 : Line).val = true ∧ ∀ j : Line, j < 2 → (4 &&& s.reg 5).getLsbD j.val = false :=
  ⟨rfl, rfl, rfl, ⟨_, rfl⟩, by decide, by decide⟩

/-- `ResetStateIsWhatResetLeaves`: a halted state other than reset that lists no memory and has no request. -/
theorem witness_reset : let s := ((State.reset.setReg 0 1).setPc 5).halt
    s.mem = [] ∧ s.irqIn = [] ∧ s ≠ State.reset := ⟨rfl, rfl, by decide⟩

/-- `EveryStepKeepsTheInvariant`: a state other than reset that meets it and steps. -/
theorem witness_invariant : (start 0xFD [0x04, 0x07, 0xFF] []).Inv ∧
    ∃ t, step (start 0xFD [0x04, 0x07, 0xFF] []) = .next t ∧ true = true :=
  ⟨⟨rfl, by decide, (fun h => by cases h), fun _ => ⟨rfl, rfl, rfl⟩⟩, exists_of_after (f := fun _ => true) (by decide)⟩

end Sys2Proof.Tests
end

/-! PROOFS. The statements of 10_state.md. First the facts they share: what the registers read after each operation, the
fault records, and, for each field, which instructions write it. -/

namespace Sys2Proof.Machine

/-! ### What a register reads after an operation -/

@[simp] theorem State.reg_alu (s : State) (op : AluOp) (d q r : Reg) :
    (s.alu op d q).reg r = if r = d then aluResult op (s.reg d) (s.reg q) else s.reg r :=
  State.reg_setReg s r d _

@[simp] theorem State.reg_spUp (s : State) (r : Reg) :
    s.spUp.reg r = if r = 7 then s.reg 7 + 1 else s.reg r := by
  rw [State.spUp_def, State.reg_setReg]

@[simp] theorem State.reg_push (s : State) (v : Byte) (r : Reg) :
    (s.push v).reg r = if r = 7 then s.reg 7 - 1 else s.reg r := by
  rw [State.push_def, State.reg_store, State.reg_setReg]

@[simp] theorem State.reg_pushReg (s : State) (q r : Reg) :
    (s.pushReg q).reg r = if r = 7 then s.reg 7 - 1 else s.reg r := by
  rw [State.pushReg_def, State.reg_push]

/-- A register pop writes its register and the stack pointer only (R142). -/
theorem State.reg_popReg_other (s : State) {q r : Reg} (hq : r ≠ q) (h7 : r ≠ 7) :
    (s.popReg q).reg r = s.reg r := by
  rw [State.popReg_def, State.reg_setReg, if_neg h7, State.reg_setReg, if_neg hq]

/-- IRET writes every register (R23). -/
theorem regByte_mem_iret_writes : ∀ r : Reg, regByte r ∈ Instr.iret.writes := by decide

/-- An instruction's effect leaves the registers alone that R23's table does not give it, if its operand bytes are
indices. -/
theorem effect_reg {i : Instr} {s t : State} {r : Reg} (h : Effect i s t) (hwf : i.WellFormed)
    (hr : regByte r ∉ i.writes) : t.reg r = s.reg r := by
  have seven : regByte 7 = 7 := rfl
  cases h with
  | hlt | cmp | prn | pra | st | callDataRange | jmp | jeqTaken | jeqNot | jneTaken | jneNot | int => rfl
  | ldi _ d _ | add _ d _ | mul _ d _ =>
    have hd : r ≠ d := fun e => hr (by simp [Instr.writes, e])
    simp [hd]
  | push | call | ret =>
    have h7 : r ≠ 7 := fun e => hr (by simp [Instr.writes, e, seven])
    simp [h7]
  | pop _ d =>
    have hd : r ≠ d := fun e => hr (by simp [Instr.writes, e])
    have h7 : r ≠ 7 := fun e => hr (by simp [Instr.writes, e, seven])
    exact State.reg_popReg_other _ hd h7
  | iret => exact absurd (regByte_mem_iret_writes r) hr
  | illegalFirst _ _ _ _ _ _ hw | illegalSecond _ _ _ _ _ _ hw => exact absurd hwf hw

/-! ### Which instructions write a flag or the run state -/

/-- Of all instructions only CMP writes `eq` (R32). -/
theorem effect_eq {i : Instr} {s t : State} (h : Effect i s t) (hi : i.mnemonic ≠ .cmp) : t.eq = s.eq := by
  cases h with
  | cmp => exact absurd rfl hi
  | iret =>
    obtain ⟨-, -, heq, -⟩ := restoreFrame_sameControl s
    exact heq
  | _ => rfl

/-- Of all instructions only IRET writes `ie`, and it sets it (R33). -/
theorem effect_ie {i : Instr} {s t : State} (h : Effect i s t) :
    (i.mnemonic = .iret ∧ t.ie = true) ∨ t.ie = s.ie := by
  cases h with
  | iret =>
    obtain ⟨-, hie, -⟩ := restoreFrame_sameControl s
    exact .inl ⟨rfl, hie⟩
  | _ => exact .inr rfl

/-- What an instruction does to the run state: HLT halts, with `pc` one past it; a fault leaves FAULTED; every other
effect keeps it (R35, R109, R174). -/
theorem effect_run {i : Instr} {s t : State} (h : Effect i s t) :
    (i.mnemonic = .hlt ∧ t.pc = s.pc + 1) ∨ t.run = .faulted ∨ t.run = s.run := by
  cases h with
  | hlt => exact .inl ⟨rfl, rfl⟩
  | callDataRange | illegalFirst | illegalSecond => exact .inr (.inl rfl)
  | iret =>
    obtain ⟨-, -, -, hrun, -⟩ := restoreFrame_sameControl s
    exact .inr (.inr hrun)
  | _ => exact .inr (.inr rfl)

/-- Interrupt entry writes neither `ir` nor `eq`, and leaves the run state or FAULTED (R186, R189). -/
theorem interruptEntry_frame {i : Line} {s t : State} (h : interruptEntry i s = .next t) :
    t.ir = s.ir ∧ t.eq = s.eq ∧ (t.run = s.run ∨ t.run = .faulted) := by
  obtain ⟨-, rfl⟩ | ⟨-, rfl⟩ := interruptEntry_cases h
  · exact ⟨rfl, rfl, .inr rfl⟩
  · obtain ⟨hir, -, heq, hrun, -⟩ := saveFrame_sameControl s i (BitVec.ofNat 8 (s.pc.toNat + 2))
    exact ⟨hir, heq, .inl hrun⟩

/-! ### What no instruction reads -/

/-- The state with `ir`, `ie` and `eq` replaced by functions of themselves: `setIr`, `setIe` and `setEq` are the cases
with one constant function. -/
def State.mapHidden (fir : Byte → Byte) (fie feq : Bool → Bool) (s : State) : State :=
  { s with ir := fir s.ir, ie := fie s.ie, eq := feq s.eq }

theorem State.mapHidden_ir (s : State) (b : Byte) : s.mapHidden (fun _ => b) id id = s.setIr b := rfl
theorem State.mapHidden_ie (s : State) (b : Bool) : s.mapHidden id (fun _ => b) id = s.setIe b := rfl
theorem State.mapHidden_eq (s : State) (b : Bool) : s.mapHidden id id (fun _ => b) = s.setEq b := rfl

/-- An instruction other than IRET carries a change of `ir`, `ie` and `eq` along unread; CMP, JEQ and JNE do so as far
as `eq` is not changed. -/
theorem exec_mapHidden {fir : Byte → Byte} {fie feq : Bool → Bool} {i : Instr} {s t : State}
    (h : exec i s = .next t) (hiret : i ≠ .iret)
    (heq : i.mnemonic = .cmp ∨ i.mnemonic = .jeq ∨ i.mnemonic = .jne → feq = id) :
    exec i (s.mapHidden fir fie feq) = .next (t.mapHidden fir fie feq) := by
  cases i with
  | hlt | ret => cases h; rfl
  | iret => exact absurd rfl hiret
  | ldi | prn | pra | push | pop | jmp | int =>
    exact withReg_map (State.mapHidden fir fie feq) rfl (fun _ => rfl) (fun _ _ he => by cases he; rfl) h
  | add | mul | st =>
    exact withRegs_map (State.mapHidden fir fie feq) rfl (fun _ => rfl) (fun _ _ _ he => by cases he; rfl) h
  | cmp =>
    obtain rfl := heq (.inl rfl)
    exact withRegs_map (State.mapHidden fir fie id) rfl (fun _ => rfl) (fun _ _ _ he => by cases he; rfl) h
  | call =>
    refine withReg_map (State.mapHidden fir fie feq) rfl (fun _ => rfl) (fun r u he => ?_) h
    change (if 256 ≤ s.retAddr 2 then _ else _) = _
    split at he <;> cases he
    · exact if_pos ‹_›
    · exact if_neg ‹_›
  | jeq =>
    obtain rfl := heq (.inr (.inl rfl))
    refine withReg_map (State.mapHidden fir fie id) rfl (fun _ => rfl) (fun r u he => ?_) h
    cases he
    change Host.Outcome.next (if s.eq then _ else _) = _
    split <;> rfl
  | jne =>
    obtain rfl := heq (.inr (.inr rfl))
    refine withReg_map (State.mapHidden fir fie id) rfl (fun _ => rfl) (fun r u he => ?_) h
    cases he
    change Host.Outcome.next (if s.eq then _ else _) = _
    split <;> rfl

/-- No instruction reads `ir` (R31). -/
theorem exec_setIr {i : Instr} {s t : State} (h : exec i s = .next t) (b : Byte) :
    exec i (s.setIr b) = .next (t.setIr b) := by
  by_cases hi : i = .iret
  · subst hi
    rw [exec_iret] at h ⊢
    rw [State.restoreFrame_setIr, Host.Outcome.next.inj h]
  · rw [← State.mapHidden_ir, ← State.mapHidden_ir]
    exact exec_mapHidden h hi fun _ => rfl

/-- No instruction reads `ie`, and IRET sets it whatever it was (R33). -/
theorem exec_setIe {i : Instr} {s t : State} (h : exec i s = .next t) (b : Bool) :
    exec i (s.setIe b) = .next (if i = .iret then t else t.setIe b) := by
  by_cases hi : i = .iret
  · subst hi
    rw [exec_iret] at h ⊢
    rw [State.restoreFrame_setIe, h, if_pos rfl]
  · rw [if_neg hi, ← State.mapHidden_ie, ← State.mapHidden_ie]
    exact exec_mapHidden h hi fun _ => rfl

/-- Only JEQ and JNE read `eq`, and CMP writes it (R32). -/
theorem exec_setEq {i : Instr} {s t : State} (h : exec i s = .next t) (hjeq : i.mnemonic ≠ .jeq)
    (hjne : i.mnemonic ≠ .jne) (hcmp : i.mnemonic ≠ .cmp) (b : Bool) : exec i (s.setEq b) = .next (t.setEq b) := by
  by_cases hi : i = .iret
  · subst hi
    rw [exec_iret] at h ⊢
    rw [State.restoreFrame_setEq, Host.Outcome.next.inj h]
  · rw [← State.mapHidden_eq, ← State.mapHidden_eq]
    exact exec_mapHidden h hi fun hm => absurd hm (by simp [hjeq, hjne, hcmp])

/-- A CMP at registers sets `eq` whatever it was (R126). -/
theorem exec_cmp_setEq {i : Instr} {s t : State} (h : exec i s = .next t) (hi : i.mnemonic = .cmp)
    (hwf : i.WellFormed) (b : Bool) : exec i (s.setEq b) = .next t := by
  cases exec_effect h with
  | cmp => exact exec_cmp _ _ _
  | illegalFirst _ _ _ _ _ _ hw | illegalSecond _ _ _ _ _ _ hw => exact absurd hwf hw
  | _ => cases hi

/-! ### The latches -/

/-- No fault has happened: the run state is not FAULTED and the latches are 0. -/
def State.Unfaulted (s : State) : Prop := s.run ≠ .faulted ∧ s.fcause = 0 ∧ s.faddr = 0 ∧ s.fval = 0

theorem State.LatchesMatch.unfaulted {s : State} (h : s.LatchesMatch) (hr : s.run ≠ .faulted) : s.Unfaulted :=
  ⟨hr, h.2 hr⟩

theorem State.Unfaulted.latchesMatch {s : State} (h : s.Unfaulted) : s.LatchesMatch :=
  ⟨fun hr => absurd hr h.1, fun _ => h.2⟩

theorem State.Unfaulted.of_sameControl {s t : State} (h : s.Unfaulted) (hc : SameControl s t) : t.Unfaulted := by
  obtain ⟨-, -, -, hrun, hcause, haddr, hval, -, -⟩ := hc
  rwa [State.Unfaulted, hrun, hcause, haddr, hval]

theorem raise_latchesMatch {s : State} {f : Fault} (h : (s.raise f).FaultRecord) : (s.raise f).LatchesMatch :=
  ⟨fun _ => h, fun hr => absurd rfl hr⟩

/-! ### Each fatal condition leaves a row of R170's table -/

theorem raise_invalidOpcode_faultRecord (s : State) : (s.raise (.invalidOpcode s.pc s.ir)).FaultRecord :=
  .inl ⟨rfl, rfl, rfl⟩

theorem raise_memRange_faultRecord (s : State) : (s.raise (.memRange 256)).FaultRecord :=
  .inr (.inl ⟨rfl, rfl, rfl⟩)

theorem zext9_toNat (b : Byte) : (zext9 b).toNat = b.toNat :=
  BitVec.toNat_setWidth_of_le (by decide)

/-- The record of ILLEGAL_OPERAND names the operand byte where memory has it. -/
theorem raise_illegalOperand_faultRecord {s : State} {a : Pc} {b : Byte} (ha : a = s.pc + 1 ∨ a = s.pc + 2)
    (hread : s.mem.read a.toNat = b) (hb : 8 ≤ b.toNat) : (s.raise (.illegalOperand a b)).FaultRecord :=
  .inr (.inr (.inl ⟨rfl, ha, congrArg zext9 hread.symm, (zext9_toNat b).symm ▸ hb⟩))

theorem raise_dataRange_faultRecord {s : State} (h : 254 ≤ s.pc.toNat) :
    (s.raise (.dataRange s.pc (BitVec.ofNat 9 (s.pc.toNat + 2)))).FaultRecord := by
  have hret : BitVec.ofNat 9 (s.pc.toNat + 2) = s.pc + 2 := by bv_omega
  exact .inr (.inr (.inr ⟨rfl, rfl, h, hret⟩))

/-! ### The parts of the invariant, each kept by every instruction -/

/-- A transfer's target is a byte (R150). -/
theorem jump_pc_le (s : State) (b : Byte) : (s.jump b).pc.toNat ≤ 256 := by
  rw [State.jump_pc, zext9_toNat]
  exact b.isLt.le

/-- A sum on `pc` that stays at most 256 does not wrap (R29). -/
theorem pc_add_toNat {p : Pc} {n : Nat} (h : p.toNat + n ≤ 256) : (p + BitVec.ofNat 9 n).toNat = p.toNat + n := by
  rw [BitVec.toNat_add, BitVec.toNat_ofNat]
  omega

theorem jump_inv {s : State} (b : Byte) (hm : s.mem.wf = true) (hs : s.Unfaulted) : (s.jump b).Inv :=
  ⟨hm, jump_pc_le s b, State.Unfaulted.latchesMatch hs⟩

theorem advance_pc_le {s : State} {n : Nat} (h : s.pc.toNat + n ≤ 256) : (s.advance n).pc.toNat ≤ 256 := by
  rwa [State.advance_pc, pc_add_toNat h]

theorem effect_mem_wf {i : Instr} {s t : State} (h : Effect i s t) (hm : s.mem.wf = true) : t.mem.wf = true := by
  cases h with
  | push _ r => exact State.wf_pushReg r hm
  | call => exact State.wf_push _ hm
  | st => exact State.wf_store _ _ hm
  | iret => rwa [State.restoreFrame_mem]
  | _ => exact hm

/-- An instruction that lies below 256 leaves `pc` at most 256: it advances by its width or jumps to a byte (R29,
R30). -/
theorem effect_pc_le {i : Instr} {s t : State} (h : Effect i s t) (hfit : s.pc.toNat + i.mnemonic.width ≤ 256) :
    t.pc.toNat ≤ 256 := by
  cases h with
  | callDataRange | illegalFirst | illegalSecond => exact Nat.le_of_add_right_le hfit
  | call | ret | jmp | jeqTaken | jneTaken => exact jump_pc_le _ _
  | iret => exact restoreFrame_pc_le s
  | _ => exact advance_pc_le hfit

/-- ILLEGAL_OPERAND for operand byte number `k` of an instruction in memory at `pc`: the latches record that byte. -/
theorem illegalOperand_latchesMatch {i : Instr} {s : State} {k : Nat} {b : Byte} (hk : k = 0 ∨ k = 1)
    (hop : i.operands[k]? = some b) (hb : 8 ≤ b.toNat) (hfit : s.pc.toNat + i.mnemonic.width ≤ 256)
    (hops : ∀ k b, i.operands[k]? = some b → s.mem.read (s.pc.toNat + 1 + k) = b) :
    (s.raise (.illegalOperand (s.pc + BitVec.ofNat 9 (k + 1)) b)).LatchesMatch := by
  have haddr : (s.pc + BitVec.ofNat 9 (k + 1)).toNat = s.pc.toNat + (k + 1) := by
    obtain ⟨hlt, -⟩ := List.getElem?_eq_some_iff.mp hop
    have hlen := operands_length i
    exact pc_add_toNat (by omega)
  have hread : s.mem.read (s.pc + BitVec.ofNat 9 (k + 1)).toNat = b := by
    rw [haddr, Nat.add_comm k, ← Nat.add_assoc, hops k b hop]
  refine raise_latchesMatch (raise_illegalOperand_faultRecord ?_ hread hb)
  obtain rfl | rfl := hk
  · exact .inl rfl
  · exact .inr rfl

/-- An instruction whose operand bytes are in memory behind `pc` leaves the latches 0 or records its fault. -/
theorem effect_latchesMatch {i : Instr} {s t : State} (h : Effect i s t) (hs : s.Unfaulted)
    (hfit : s.pc.toNat + i.mnemonic.width ≤ 256)
    (hops : ∀ k b, i.operands[k]? = some b → s.mem.read (s.pc.toNat + 1 + k) = b) : t.LatchesMatch := by
  cases h with
  | hlt => exact State.Unfaulted.latchesMatch ⟨nofun, hs.2⟩
  | callDataRange _ _ hp => exact raise_latchesMatch (raise_dataRange_faultRecord hp)
  | illegalFirst _ _ b _ ho hb =>
    exact illegalOperand_latchesMatch (k := 0) (.inl rfl) (by simp [ho]) hb hfit hops
  | illegalSecond _ _ _ b ho hb =>
    exact illegalOperand_latchesMatch (k := 1) (.inr rfl) (by simp [ho]) hb hfit hops
  | iret =>
    have hc := restoreFrame_sameControl s
    exact State.Unfaulted.latchesMatch (State.Unfaulted.of_sameControl (s := s.setIe true) hs hc)
  | _ => exact State.Unfaulted.latchesMatch hs

/-- Interrupt entry keeps the invariant: it records DATA_RANGE, or saves bytes and jumps to one. -/
theorem interruptEntry_inv {i : Line} {s t : State} (h : interruptEntry i s = .next t) (hm : s.mem.wf = true)
    (hp : s.pc.toNat ≤ 256) (hs : s.Unfaulted) : t.Inv := by
  obtain ⟨hpc, rfl⟩ | ⟨-, rfl⟩ := interruptEntry_cases h
  · exact ⟨hm, hp, raise_latchesMatch (raise_dataRange_faultRecord hpc)⟩
  · have hc := saveFrame_sameControl s i (BitVec.ofNat 8 (s.pc.toNat + 2))
    exact jump_inv _ (State.wf_saveFrame i _ hm) (State.Unfaulted.of_sameControl (s := s.setIe false) hs hc)

/-! ### The obligations -/

/-- Settles O58, by the cases of a step: each instruction and the interrupt entry keep the three parts of the invariant,
and each fault of the fetch leaves its row of R170's table. -/
theorem everyStepKeepsTheInvariant : Obligations.EveryStepKeepsTheInvariant := by
  intro s t ⟨hm, hp, hl⟩ h
  have hm' : s.sampleIrq.mem.wf = true := by rwa [State.sampleIrq_mem]
  have hp' : s.sampleIrq.pc.toNat ≤ 256 := by rwa [State.sampleIrq_pc]
  have hun (hr : s.run = .running) : s.sampleIrq.Unfaulted := by
    simpa [State.Unfaulted] using hl.unfaulted (by simp [hr])
  obtain ⟨-, rfl⟩ | ⟨i, hr, -, hi⟩ | ⟨i, hf, hfit, hops, he⟩ |
    ⟨-, hpc, rfl⟩ | ⟨-, -, rfl⟩ | ⟨-, -, rfl⟩ := step_cases h
  · exact ⟨hm, hp, hl⟩
  · exact interruptEntry_inv hi hm' hp' (hun hr)
  · obtain ⟨⟨hr, -⟩, -⟩ := hf
    have hfit' : s.sampleIrq.fetched.pc.toNat + i.mnemonic.width ≤ 256 := by simpa using hfit
    refine ⟨effect_mem_wf he hm', effect_pc_le he hfit', effect_latchesMatch he (hun hr) hfit' ?_⟩
    simpa using hops
  · have h256 : s.pc = 256 := BitVec.eq_of_toNat_eq (Nat.le_antisymm hp hpc)
    exact ⟨hm', hp', raise_latchesMatch (h256 ▸ raise_memRange_faultRecord _)⟩
  · have hrec := raise_invalidOpcode_faultRecord s.sampleIrq.fetched
    simp only [State.fetched_pc, State.fetched_ir, State.sampleIrq_pc, State.sampleIrq_mem] at hrec
    exact ⟨hm', hp', raise_latchesMatch hrec⟩
  · exact ⟨hm', hp', raise_latchesMatch (raise_memRange_faultRecord _)⟩

/-- Settles O33, from the effects of the instructions. -/
theorem instructionsWriteOnlyTheirRegisters : Obligations.InstructionsWriteOnlyTheirRegisters :=
  fun _ _ _ _ hwf h hr => effect_reg (exec_effect h) hwf hr

/-- Settles O38: an entry, a fault and every instruction but CMP keep `eq`. -/
theorem onlyCmpWritesEqual : Obligations.OnlyCmpWritesEqual := by
  intro s t h hne
  obtain ⟨-, rfl⟩ | ⟨i, -, -, hi⟩ | ⟨i, hf, -, -, he⟩ |
    ⟨-, -, rfl⟩ | ⟨-, -, rfl⟩ | ⟨-, -, rfl⟩ := step_cases h
  · exact absurd rfl hne
  · obtain ⟨-, heq, -⟩ := interruptEntry_frame hi
    exact absurd (heq.trans s.sampleIrq_eq) hne
  · by_cases hc : i.mnemonic = .cmp
    · exact hc ▸ hf
    · exact absurd ((effect_eq he hc).trans s.sampleIrq_eq) hne
  all_goals exact absurd s.sampleIrq_eq hne

/-- Settles O39: an entry is taken only with `ie = 1`, and of all instructions only IRET writes `ie`, which it sets. -/
theorem onlyEntryAndIretWriteInterruptsEnabled : Obligations.OnlyEntryAndIretWriteInterruptsEnabled := by
  intro s t h hne
  obtain ⟨-, rfl⟩ | ⟨i, hr, hi, -⟩ | ⟨i, hf, -, -, he⟩ |
    ⟨-, -, rfl⟩ | ⟨-, -, rfl⟩ | ⟨-, -, rfl⟩ := step_cases h
  · exact absurd rfl hne
  · obtain ⟨hie, -⟩ := takenLine_some hi
    exact .inl ⟨s.sampleIrq_ie.symm.trans hie, hr, i, hi⟩
  · obtain ⟨hm, ht⟩ | hie := effect_ie he
    · exact .inr ⟨Bool.eq_false_of_not_eq_true fun hs => hne (ht.trans hs.symm), hm ▸ hf⟩
    · exact absurd (hie.trans s.sampleIrq_ie) hne
  all_goals exact absurd s.sampleIrq_ie hne

/-- Settles O40. -/
theorem instructionsDoNotReadHiddenState : Obligations.InstructionsDoNotReadHiddenState :=
  fun _ _ _ h => ⟨exec_setIr h, exec_setIe h, exec_setEq h, exec_cmp_setEq h⟩

/-- Settles O41: the ticks that do not fetch are those of a stopped engine, the entries, and the MEM_RANGE at 256. -/
theorem onlyFetchWritesInstructionRegister : Obligations.OnlyFetchWritesInstructionRegister := by
  intro s t h hno
  obtain ⟨-, rfl⟩ | ⟨i, -, -, hi⟩ | ⟨i, ⟨hf, hpc, -⟩, -⟩ |
    ⟨-, -, rfl⟩ | ⟨hf, hpc, -⟩ | ⟨hf, hpc, -⟩ := step_cases h
  · rfl
  · obtain ⟨hir, -⟩ := interruptEntry_frame hi
    exact hir.trans s.sampleIrq_ir
  · exact absurd ⟨hf, hpc⟩ hno
  · exact s.sampleIrq_ir
  all_goals exact absurd ⟨hf, hpc⟩ hno

/-- Settles O42: an entry, a fault and every instruction but HLT leave the run state or FAULTED. -/
theorem onlyHltHalts : Obligations.OnlyHltHalts := by
  intro s t h hs ht
  have keeps {u : State} (hu : u.run = s.sampleIrq.run) : u.run ≠ .halted := by rwa [hu, State.sampleIrq_run]
  have faults {u : State} (hu : u.run = .faulted) : u.run ≠ .halted := by simp [hu]
  obtain ⟨-, rfl⟩ | ⟨i, -, -, hi⟩ | ⟨i, hf, -, -, he⟩ |
    ⟨-, -, rfl⟩ | ⟨-, -, rfl⟩ | ⟨-, -, rfl⟩ := step_cases h
  · exact absurd ht hs
  · obtain ⟨-, -, hrun | hrun⟩ := interruptEntry_frame hi
    · exact absurd ht (keeps hrun)
    · exact absurd ht (faults hrun)
  · obtain ⟨hm, hpc⟩ | hrun | hrun := effect_run he
    · exact ⟨hm ▸ hf, by simpa using hpc⟩
    · exact absurd ht (faults hrun)
    · exact absurd ht (keeps hrun)
  all_goals exact absurd ht (faults rfl)

/-- Settles O31. -/
theorem registersHoldWhatIsWritten : Obligations.RegistersHoldWhatIsWritten := by
  intro s r v
  have hsame : (s.setReg r v).reg r = v := by rw [State.reg_setReg, if_pos rfl]
  have hother : SameRegsBut [r] s (s.setReg r v) := fun q hq => by
    rw [State.reg_setReg, if_neg (by simpa using hq)]
  exact ⟨hsame, hother, rfl, rfl, setReg_sameControl s r v⟩

/-- Settles O54: every field but the memory and the schedule is that of `State.reset`. -/
theorem resetGivesTheTable : Obligations.ResetGivesTheTable := by
  intro s
  have hzero : ∀ r : Reg, r ≠ 7 → State.reset.reg r = 0 := by decide
  exact ⟨hzero, rfl, rfl, rfl, rfl, rfl, rfl, rfl, rfl, rfl, rfl, rfl⟩

/-- Settles O57. -/
theorem resetMeetsTheInvariant : Obligations.ResetMeetsTheInvariant :=
  ⟨reset_memory_wf, Nat.zero_le 256, State.Unfaulted.latchesMatch ⟨nofun, rfl, rfl, rfl⟩⟩

/-- Settles O59: reset keeps only the memory and the schedule, and both are empty here. -/
theorem resetStateIsWhatResetLeaves : Obligations.ResetStateIsWhatResetLeaves := by
  refine ⟨rfl, fun s hm hi => ?_⟩
  rw [State.applyReset, hm, hi]
  rfl

end Sys2Proof.Machine

/-! PROOFS. The statements of 20_memory.md. First the facts they share: which addresses each write of the engine can
change, what a load reads after a push, which bytes the window shows, and where a list of bytes lies once written. -/

namespace Sys2Proof.Machine

/-! ### Which addresses a write changes -/

/-- A byte that differs lies at one of the excepted addresses. -/
theorem SameMemoryBut.mem_of_ne {as : List Nat} {s t : State} {x : Nat} (h : SameMemoryBut as s t)
    (hx : t.mem.read x ≠ s.mem.read x) : x ∈ as :=
  Decidable.by_contra fun hn => hx (h x hn)

theorem SameMemoryBut.mono {as bs : List Nat} {s t : State} (h : SameMemoryBut as s t) (hsub : as ⊆ bs) :
    SameMemoryBut bs s t := fun a ha => h a fun has => ha (hsub has)

theorem store_sameMemoryBut (s : State) (a v : Byte) : SameMemoryBut [a.toNat] s (s.store a v) := fun x hx => by
  rw [State.store_mem, Memory.read_write, if_neg (List.ne_of_not_mem_cons hx)]

theorem push_sameMemoryBut (s : State) (v : Byte) : SameMemoryBut [(s.reg 7 - 1).toNat] s (s.push v) := by
  rw [State.push_def]
  exact store_sameMemoryBut (s.setReg 7 (s.reg 7 - 1)) _ _

theorem pushReg_sameMemoryBut (s : State) (r : Reg) : SameMemoryBut [(s.reg 7 - 1).toNat] s (s.pushReg r) := by
  rw [State.pushReg_def]
  exact push_sameMemoryBut s _

/-- The addresses `n` pushes write, the first one first, from the stack pointer `sp` (R140). -/
def stackSlots (sp : Byte) (n : Nat) : List Nat :=
  (List.range n).map fun k => (sp - 1 - BitVec.ofNat 8 k).toNat

theorem mem_stackSlots {sp : Byte} {n x : Nat} :
    x ∈ stackSlots sp n ↔ ∃ k, k < n ∧ x = (sp - 1 - BitVec.ofNat 8 k).toNat := by
  simp [stackSlots, eq_comm]

/-- One push, then the others from the lowered stack pointer. -/
theorem stackSlots_succ (sp : Byte) (n : Nat) : stackSlots sp (n + 1) = (sp - 1).toNat :: stackSlots (sp - 1) n := by
  have hslot (k : Nat) : sp - 1 - BitVec.ofNat 8 (k + 1) = sp - 1 - 1 - BitVec.ofNat 8 k := by
    rw [BitVec.ofNat_add]
    bv_omega
  rw [stackSlots, List.range_succ_eq_map, List.map_cons, List.map_map, BitVec.sub_zero]
  exact congrArg _ (List.map_congr_left fun k _ => congrArg BitVec.toNat (hslot k))

/-- A push and then writes at the next `n` slots are writes at `n + 1` slots. -/
theorem SameMemoryBut.of_push {s t u : State} {n : Nat} (h : SameMemoryBut [(s.reg 7 - 1).toNat] s t)
    (hsp : t.reg 7 = s.reg 7 - 1) (hrest : SameMemoryBut (stackSlots (t.reg 7) n) t u) :
    SameMemoryBut (stackSlots (s.reg 7) (n + 1)) s u := by
  rw [hsp] at hrest
  rw [stackSlots_succ]
  exact (h.mono (by simp)).trans (hrest.mono (List.subset_cons_self _ _))

theorem pushRegs_sameMemoryBut (rs : List Reg) (s : State) :
    SameMemoryBut (stackSlots (s.reg 7) rs.length) s (rs.foldl State.pushReg s) := by
  induction rs generalizing s with
  | nil => exact fun _ _ => rfl
  | cons r rs ih => exact .of_push (pushReg_sameMemoryBut s r) (by simp) (ih (s.pushReg r))

/-- The save steps write the nine bytes below the stack pointer only (R163, R186). -/
theorem saveFrame_sameMemoryBut (s : State) (i : Line) (ret : Byte) :
    SameMemoryBut (stackSlots (s.reg 7) 9) s (s.saveFrame i ret) := by
  have hsp : ((s.setIe false).clearPending i).reg 7 = s.reg 7 := State.reg_setReg (s.setIe false) 7 6 _
  have hmem (as : List Nat) : SameMemoryBut as s ((s.setIe false).clearPending i) := fun _ _ => rfl
  rw [State.saveFrame, ← hsp]
  generalize (s.setIe false).clearPending i = u at hmem
  have h := pushRegs_sameMemoryBut pushOrder (u.push ret)
  exact (hmem _).trans (.of_push (push_sameMemoryBut u ret) (by simp) h)

theorem interruptEntry_sameMemoryBut {i : Line} {s t : State} (h : interruptEntry i s = .next t) :
    SameMemoryBut (stackSlots (s.reg 7) 9) s t := by
  obtain ⟨-, rfl⟩ | ⟨-, rfl⟩ := interruptEntry_cases h
  · exact fun _ _ => rfl
  · intro x hx
    rw [State.jump_mem]
    exact saveFrame_sameMemoryBut s i _ x hx

/-- Of all instructions only PUSH and CALL write the byte below the stack pointer, and ST the one its first register
names (R54). -/
theorem effect_mem_read {i : Instr} {s t : State} {x : Nat} (h : Effect i s t)
    (hx : t.mem.read x ≠ s.mem.read x) :
    ((i.mnemonic = .push ∨ i.mnemonic = .call) ∧ x = (s.reg 7 - 1).toNat) ∨
    ∃ a b : Reg, i = .st (regByte a) (regByte b) ∧ x = (s.reg a).toNat := by
  cases h with
  | push _ r => exact .inl ⟨.inl rfl, List.mem_singleton.mp ((pushReg_sameMemoryBut s r).mem_of_ne hx)⟩
  | call => exact .inl ⟨.inr rfl, List.mem_singleton.mp ((push_sameMemoryBut s _).mem_of_ne hx)⟩
  | st _ a b => exact .inr ⟨a, b, rfl, List.mem_singleton.mp ((store_sameMemoryBut s _ _).mem_of_ne hx)⟩
  | iret => exact absurd (by rw [State.restoreFrame_mem]) hx
  | _ => exact absurd rfl hx

/-! ### What is read back -/

@[simp] theorem State.load_push (s : State) (v b : Byte) :
    (s.push v).load b = if b = s.reg 7 - 1 then v else s.load b := by
  rw [State.push_def, State.load_store, State.load_setReg]

@[simp] theorem State.load_pushReg (s : State) (r : Reg) (b : Byte) :
    (s.pushReg r).load b = if b = s.reg 7 - 1 then (if r = 7 then s.reg 7 - 1 else s.reg r) else s.load b := by
  rw [State.pushReg_def, State.load_push]

/-- Which bytes a window shows: those asked for that are in memory (R86). -/
theorem readWindow_getElem? (s : State) (n a k : Nat) :
    (readWindow s n a)[k]? = if k < n ∧ a + k < 256 then some (s.mem.read (a + k)) else none := by
  have hlen := readWindow_length s n a
  split
  · have hget := List.getElem?_eq_getElem (l := readWindow s n a) (i := k) (by omega)
    rw [hget, readWindow_getElem hget]
  · exact List.getElem?_eq_none (by omega)

/-- At a byte address among the three at `pc`, the window shows what a load reads: fetch and loads see one memory
(R65). -/
theorem window_getElem?_eq_load {s : State} {a : Byte} {k : Nat} (hk : k < 3) (ha : s.pc.toNat + k = a.toNat) :
    s.window[k]? = some (s.load a) := by
  have hlt : s.pc.toNat + k < 256 := ha ▸ a.isLt
  rw [State.window, readWindow_getElem?, if_pos ⟨hk, hlt⟩, ha, State.load]

/-! ### A list of bytes written from an address up -/

/-- The bytes below the first address stay. -/
theorem Memory.read_writeList_below {m : Memory} {a x : Nat} (vs : List Byte) (hx : x < a) :
    (m.writeList a vs).read x = m.read x := by
  induction vs generalizing m a with
  | nil => rfl
  | cons v vs ih =>
    unfold Memory.writeList
    split
    · rw [ih (by omega), Memory.read_write, if_neg (by omega)]
    · rfl

/-- Byte `k` from the first address is byte `k` of the list, if it has one. -/
theorem Memory.read_writeList_add {m : Memory} {a k : Nat} (vs : List Byte) (hk : a + k < Config.memSize) :
    (m.writeList a vs).read (a + k) = (vs[k]?).getD (m.read (a + k)) := by
  induction vs generalizing m a k with
  | nil => rfl
  | cons v vs ih =>
    rw [Memory.writeList, if_pos (by omega)]
    cases k with
    | zero => simp [Memory.read_writeList_below]
    | succ k =>
      have hne : a + 1 + k ≠ a := by omega
      have haddr : a + (k + 1) = a + 1 + k := by omega
      rw [haddr] at hk ⊢
      rw [ih hk, Memory.read_write, if_neg hne, List.getElem?_cons_succ]

/-! ### The obligations -/

/-- Settles O34: an entry writes the nine slots below the stack pointer, the effects of the instructions give the other
two cases, and a stopped engine and the faults of the fetch leave the memory as it is. -/
theorem onlyStoresChangeMemory : Obligations.OnlyStoresChangeMemory := by
  intro s t x h hx
  have hsp : s.sampleIrq.reg 7 = s.reg 7 := s.sampleIrq_reg (by decide)
  have hmem := s.sampleIrq_mem
  obtain ⟨-, rfl⟩ | ⟨i, hr, hl, hi⟩ | ⟨i, hf, -, hops, he⟩ |
    ⟨-, -, rfl⟩ | ⟨-, -, rfl⟩ | ⟨-, -, rfl⟩ := step_cases h
  · exact absurd rfl hx
  · have hslot := (interruptEntry_sameMemoryBut hi).mem_of_ne (by rwa [hmem])
    rw [hsp] at hslot
    exact .inl ⟨hr, ⟨i, hl⟩, mem_stackSlots.mp hslot⟩
  · obtain ⟨hm | hm, hxsp⟩ | ⟨a, b, rfl, hxa⟩ := effect_mem_read he (by rwa [State.fetched_mem, hmem])
    · exact .inr (.inl ⟨.inl (hm ▸ hf), hsp ▸ hxsp⟩)
    · exact .inr (.inl ⟨.inr (hm ▸ hf), hsp ▸ hxsp⟩)
    · exact .inr (.inr ⟨hf, a, hops 0 (regByte a) rfl, hxa⟩)
  all_goals exact absurd (congrArg (Memory.read · x) hmem) hx

/-- Settles O35: each of the three writes is what a load at its address reads, and the window shows what a load reads. -/
theorem storesAreFetchedNext : Obligations.StoresAreFetchedNext := by
  refine ⟨fun a b s t k h hk hpc => ?_, fun r s t k hr h hk hpc => ?_, fun r s t k hp h hk hpc => ?_⟩
  · cases (exec_st s a b).symm.trans h
    rw [window_getElem?_eq_load hk hpc, State.load_advance, State.load_store, if_pos rfl]
  · cases (exec_push s r).symm.trans h
    rw [window_getElem?_eq_load hk hpc]
    simp [hr]
  · cases (exec_call s r (by omega)).symm.trans h
    rw [window_getElem?_eq_load hk hpc]
    simp

/-- Settles O56. -/
theorem loadedImageLiesFromZero : Obligations.LoadedImageLiesFromZero := by
  intro s image a ha
  have h := Memory.read_writeList_add (m := s.mem) (a := 0) (k := a) image (by rwa [Nat.zero_add])
  rwa [Nat.zero_add] at h

/-- Settles O29: below 256 the address is a byte, where MemRead is the engine's load. -/
theorem memReadChecksTheRange : Obligations.MemReadChecksTheRange :=
  fun s a => ⟨fun h => if_pos h, fun h => memRead_byte s (BitVec.ofNatLT a h)⟩

/-- Settles O30: below 256 the address is a byte, where MemWrite is the engine's store. -/
theorem memWriteChangesOneByte : Obligations.MemWriteChangesOneByte := by
  refine fun s a v => ⟨fun h => if_pos h, fun h => ?_⟩
  obtain ⟨b, rfl⟩ : ∃ b : Byte, b.toNat = a := ⟨BitVec.ofNatLT a h, rfl⟩
  have hread : (s.store b v).mem.read b.toNat = v := by rw [State.store_mem, Memory.read_write, if_pos rfl]
  exact ⟨s.store b v, memWrite_byte s b v, hread, store_sameMemoryBut s b v, fun _ _ => rfl, rfl,
    store_sameControl s b v⟩

end Sys2Proof.Machine

/-! PROOFS. The statements of 30_encoding.md. First the facts they share: which bytes the dispatch table gives a
handler, and how a named instruction's operand bytes decode. The encoding of an instruction is inverted by `decode_ok` of
Laws/Decode.lean, and the bytes of a window are `readWindow_getElem?`. -/

namespace Sys2Proof

/-! ### The dispatch table -/

theorem OpcodeMap.Valid.injective {opc : OpcodeMap} (hv : opc.Valid) : Function.Injective opc := by
  obtain ⟨hinj, -, -, -, -⟩ := hv
  exact fun m n h => hinj m n h

theorem OpcodeMap.Valid.ne_FF {opc : OpcodeMap} (hv : opc.Valid) (m : Mnemonic) : opc m ≠ 0xFF := by
  obtain ⟨-, -, -, -, hFF⟩ := hv
  exact hFF m

/-- Under distinct opcodes, the handler found at an instruction's opcode byte is that instruction's own (R87). -/
theorem lookup_opc {opc : OpcodeMap} (hinj : Function.Injective opc) (m : Mnemonic) :
    lookup opc (opc m) = some m := by
  cases hl : lookup opc (opc m) with
  | none => exact absurd rfl (lookup_none hl m)
  | some n => rw [hinj (lookup_some hl)]

/-- A byte has no handler exactly if it is no instruction's opcode (R90). -/
theorem lookup_eq_none_iff {opc : OpcodeMap} {op : Byte} : lookup opc op = none ↔ ∀ m, opc m ≠ op := by
  refine ⟨lookup_none, fun h => ?_⟩
  cases hl : lookup opc op with
  | none => rfl
  | some m => exact absurd (lookup_some hl) (h m)

/-- Searching the default table finds every instruction again at its opcode byte, so no two share one. -/
theorem defaultOpc_injective : Function.Injective defaultOpc := by
  have hfound : ∀ m, lookup defaultOpc (defaultOpc m) = some m := by
    intro m; cases m <;> rfl
  exact fun m n h => Option.some.inj (by rw [← hfound m, h, hfound n])

/-! ### Decoding what was encoded -/

/-- The opcode byte alone selects the instruction (R86). -/
theorem decode_cons {opc : OpcodeMap} {op : Byte} {m : Mnemonic} (h : lookup opc op = some m) (bs : List Byte) :
    decode opc (op :: bs) = decodeOperands m op bs := by
  simp only [decode, h]

/-- An instruction's name takes exactly the operand bytes back that the instruction has (R93). -/
theorem decodeOperands_operands (i : Instr) (op : Byte) (rest : List Byte) :
    decodeOperands i.mnemonic op (i.operands ++ rest) = .ok (i, rest) := by
  cases i <;> rfl

theorem encode_length (opc : OpcodeMap) (i : Instr) : (encode opc i).length = i.mnemonic.width := by
  rw [encode, List.length_cons, Machine.operands_length]

/-! ### The obligations -/

/-- Settles O21: distinct opcodes select the instruction's own handler, which reads back its operand bytes. -/
theorem decodeInvertsEncode : Obligations.DecodeInvertsEncode := by
  intro opc hv i rest
  rw [encode, List.cons_append, decode_cons (lookup_opc hv.injective i.mnemonic), decodeOperands_operands]

/-- Settles O20: the map's distinct opcodes give the first part, no opcode being 0xFF the second; the default table is
searched for each of the 256 bytes. -/
theorem dispatchTableFollowsTheMap : Obligations.DispatchTableFollowsTheMap := by
  refine ⟨fun opc hv op m => ⟨lookup_some, ?_⟩, fun opc hv => ?_, by decide⟩
  · rintro rfl
    exact lookup_opc hv.injective m
  · exact lookup_eq_none_iff.mpr hv.ne_FF

/-- Settles O22: `decode_ok` says which bytes an instruction was decoded from. -/
theorem encodeInvertsDecode : Obligations.EncodeInvertsDecode := by
  intro opc bytes rest i h
  obtain ⟨_, _, rfl, rfl, rfl⟩ := decode_ok h
  exact ⟨rfl, encode_length opc i⟩

/-- Settles O24: the window is three bytes read from `pc` up. -/
theorem windowReadsAtTheProgramCounter : Obligations.WindowReadsAtTheProgramCounter :=
  fun s k => Machine.readWindow_getElem? s 3 s.pc.toNat k

/-- Settles O18: each word is looked up in the default table. -/
theorem sampleBytesDecode : Obligations.SampleBytesDecode :=
  ⟨rfl, rfl, rfl, rfl, rfl, rfl, rfl, rfl, rfl⟩

/-- Settles O19: the default map is injective, and the rest is read off its table. -/
theorem defaultOpcodeMapIsValid : Obligations.DefaultOpcodeMapIsValid := by
  refine ⟨fun m n h => defaultOpc_injective h, rfl, rfl, rfl, fun m => ?_⟩
  cases m <;> decide

end Sys2Proof

/-! PROOFS. The statements of 40_execution_cycle.md. First the facts they share: that every part of a tick answers a
next state, how a run of several steps follows from one, and that no instruction writes `ir`. -/

namespace Sys2Proof.Machine

/-! ### Every part of a tick answers a next state -/

/-- Every instruction is modelled, and a fatal condition is a next state: `exec` never stops the host. -/
theorem exec_next (i : Instr) (s : State) : ∃ t, exec i s = .next t := by
  cases i with
  | hlt | ret | iret => exact ⟨_, rfl⟩
  | ldi | prn | pra | push | pop | jmp | jeq | jne | int => exact withReg_next fun _ => ⟨_, rfl⟩
  | add | mul | st | cmp => exact withRegs_next fun _ _ => ⟨_, rfl⟩
  | call r =>
    refine withReg_next fun r => ?_
    split <;> exact ⟨_, rfl⟩

theorem interruptEntry_next (i : Line) (s : State) : ∃ t, interruptEntry i s = .next t := by
  unfold interruptEntry
  split <;> exact ⟨_, rfl⟩

/-- Bytes at `pc` that decode to an instruction execute it, its opcode in `ir` (R104 to R106). -/
theorem fetchExecute_ok {opc : OpcodeMap} {s : State} {i : Instr} {rest : List Byte}
    (h : decode opc s.window = .ok (i, rest)) : fetchExecute opc s = exec i s.fetched := by
  simp only [fetchExecute, h]

/-- Bytes at `pc` that decode to nothing end the cycle in the fault that says why (R104 to R106). -/
theorem fetchExecute_error {opc : OpcodeMap} {s : State} {e : DecodeError}
    (h : decode opc s.window = .error e) : fetchExecute opc s = .next (s.undecoded e) := by
  simp only [fetchExecute, h]

theorem fetchExecute_next (opc : OpcodeMap) (s : State) : ∃ t, fetchExecute opc s = .next t := by
  cases hd : decode opc s.window with
  | ok d => exact fetchExecute_ok hd ▸ exec_next d.1 s.fetched
  | error e => exact ⟨_, fetchExecute_error hd⟩

theorem cycle_next (opc : OpcodeMap) (s : State) : ∃ t, cycle opc s = .next t := by
  cases hl : s.takenLine with
  | some i => exact cycle_taken (opc := opc) hl ▸ interruptEntry_next i s
  | none => exact cycle_fetches (opc := opc) hl ▸ fetchExecute_next opc s

theorem tick_next (opc : OpcodeMap) (s : State) : ∃ t, tick opc s = .next t := by
  by_cases hr : s.run = .running
  · exact tick_running (opc := opc) hr ▸ cycle_next opc s.sampleIrq
  · exact ⟨s, tick_stopped hr⟩

/-! ### A run of several steps -/

/-- A step to a next state and `n` more are `n + 1` steps. -/
theorem run_succ {s t : State} (h : step s = .next t) (n : Nat) :
    Host.Core.run core (n + 1) s = Host.Core.run core n t := by
  have hcore : core.step s = .next t := h
  simp only [Host.Core.run, hcore]

/-! ### The effects of an instruction keep `ir` -/

/-- No instruction writes `ir`, even when it faults (R31). -/
theorem effect_ir {i : Instr} {s t : State} (h : Effect i s t) : t.ir = s.ir := by
  cases h with
  | iret =>
    obtain ⟨hir, -⟩ := restoreFrame_sameControl s
    exact hir
  | _ => rfl

/-! ### The obligations -/

/-- Settles O25, by induction on the number of steps. -/
theorem stoppedEngineIgnoresTicks : Obligations.StoppedEngineIgnoresTicks := by
  intro n s hs
  induction n with
  | zero => rfl
  | succ n ih => rw [run_succ (tick_stopped hs) n, ih]

/-- Settles O26: every way a fetching step can end leaves the fetched byte in `ir`, and at 256 there is no byte to
decode. -/
theorem fetchWritesInstructionRegister : Obligations.FetchWritesInstructionRegister := by
  refine ⟨fun s t ⟨hr, hl⟩ hp h => ?_, fun s hf hp => ?_⟩
  · have hfetched : s.sampleIrq.fetched.ir = s.mem.read s.pc.toNat := by simp
    obtain ⟨hs, -⟩ | ⟨i, -, hi, -⟩ | ⟨i, -, -, -, he⟩ |
      ⟨-, hpc, -⟩ | ⟨-, -, rfl⟩ | ⟨-, -, rfl⟩ := step_cases h
    · exact absurd hr hs
    · exact absurd (hi.symm.trans hl) nofun
    · exact (effect_ir he).trans hfetched
    · exact absurd hp hpc.not_gt
    all_goals exact hfetched
  · have hpc : 256 ≤ s.sampleIrq.pc.toNat := by rw [State.sampleIrq_pc, hp]; decide
    have hd : decode defaultOpc s.sampleIrq.window = .error .noOpcode := by rw [window_nil hpc]; rfl
    rw [step_fetches hf, fetchExecute_error hd, State.undecoded, State.sampleIrq_pc, hp]

/-- Settles O28: `tick_next`, and then by induction on the number of steps. -/
theorem everyTickAnswersNext : Obligations.EveryTickAnswersNext := by
  refine ⟨tick_next, fun n s => ?_⟩
  induction n generalizing s with
  | zero => exact ⟨s, rfl⟩
  | succ n ih =>
    obtain ⟨t, ht⟩ := tick_next defaultOpc s
    obtain ⟨u, hu⟩ := ih t
    exact ⟨u, (run_succ ht n).trans hu⟩

/-- Settles O1: HLT changes the run state and `pc` only, and a halted engine is stopped. -/
theorem hltStopsTheEngine : Obligations.HltStopsTheEngine := by
  refine ⟨rfl, fun s => ⟨s.halt.advance 1, exec_hlt s, rfl, rfl, fun _ _ => rfl, fun _ _ => rfl, ?_, ?_⟩⟩
  · exact setPc_sameControl s.halt _
  · exact tick_stopped nofun

/-- Settles O23: the sampling changes none of the bytes at `pc`. -/
theorem stepRunsTheDecodedInstruction : Obligations.StepRunsTheDecodedInstruction := by
  intro s i rest hf hd
  rw [← window_sampleIrq] at hd
  rw [step_fetches hf, fetchExecute_ok hd, State.fetched, State.sampleIrq_mem, State.sampleIrq_pc]

end Sys2Proof.Machine

/-! PROOFS. The statements of 41_alu_data.md. First the facts they share: the faults the operands of any instruction raise,
the effect of an instruction whose only write is one register, and the values the ALU and the comparison give. -/

namespace Sys2Proof.Machine

/-! ### The faults of the operands -/

/-- Of the ways a fetching cycle can end, only the missing operand byte is left to an instruction that does not fit below
256: an instruction that was decoded does fit, and the opcode byte is in memory and has a handler. -/
theorem operandBeyondMemoryFaults (m : Mnemonic) : OperandBeyondMemoryFaults m := by
  rintro s ⟨hf, hpc, hop⟩ hend
  have hread : s.sampleIrq.mem.read s.sampleIrq.pc.toNat = defaultOpc m := by simpa using hop
  rw [← State.sampleIrq_pc] at hpc hend
  rw [step_fetches hf]
  obtain ⟨t, ht⟩ := fetchExecute_next defaultOpc s.sampleIrq
  obtain ⟨i, -, -, hi, hfit, -⟩ | ⟨hbeyond, -⟩ | ⟨-, hnone, -⟩ | ⟨-, -, -, -, rfl⟩ := fetchExecute_cases ht
  · obtain rfl := defaultOpc_injective (hi.symm.trans hread)
    exact absurd hend hfit.not_gt
  · exact absurd hpc hbeyond.not_gt
  · exact absurd hread.symm (lookup_none hnone m)
  · rw [ht, State.fetched, hread]

/-- A handler that checks one register operand raises the faults of format R. -/
theorem operandFaultsR {m : Mnemonic} {mk : Byte → Instr} {effect : State → Reg → Result}
    (h : ∀ b s, exec (mk b) s = withReg s b (effect s)) : OperandFaultsR m mk :=
  ⟨operandBeyondMemoryFaults m, fun b s hb => (h b s).trans (withReg_illegal s _ hb)⟩

/-- A handler that checks two register operands raises the faults of format RR. -/
theorem operandFaultsRR {m : Mnemonic} {mk : Byte → Byte → Instr} {effect : State → Reg → Reg → Result}
    (h : ∀ a b s, exec (mk a b) s = withRegs s a b (effect s)) : OperandFaultsRR m mk :=
  ⟨operandBeyondMemoryFaults m, fun a b s ha => (h a b s).trans (withRegs_illegal_first s b _ ha),
    fun a b s hb => (h (regByte a) b s).trans (withRegs_illegal_second s a _ hb)⟩

/-! ### One register written -/

/-- An instruction that writes one register and advances `pc` leaves everything else as it was. -/
theorem setReg_advance_next {res : Result} {s : State} {d : Reg} {v : Byte} {n : Nat}
    (h : res = .next ((s.setReg d v).advance n)) :
    ∃ t, res = .next t ∧ t.reg d = v ∧ t.pc = s.pc + BitVec.ofNat 9 n ∧
      SameRegsBut [d] s t ∧ SameMemoryBut [] s t ∧ SameControl s t := by
  obtain ⟨hreg, hother, -, -, hcontrol⟩ := registersHoldWhatIsWritten s d v
  exact ⟨_, h, hreg, rfl, hother, fun _ _ => rfl, hcontrol⟩

/-! ### The values computed -/

theorem aluResult_add_toNat (va vb : Byte) : (aluResult .add va vb).toNat = (va.toNat + vb.toNat) % 256 :=
  BitVec.toNat_ofNat _ _

theorem aluResult_mul_toNat (va vb : Byte) : (aluResult .mul va vb).toNat = (va.toNat * vb.toNat) % 256 :=
  BitVec.toNat_ofNat _ _

theorem compareEqual_eq_true_iff (va vb : Byte) : compareEqual va vb = true ↔ va = vb :=
  decide_eq_true_iff

/-! ### The obligations -/

/-- Settles O2: LDI writes one register, and only its first operand byte is checked. -/
theorem ldiLoadsTheImmediate : Obligations.LdiLoadsTheImmediate :=
  ⟨fun _ _ => rfl, fun r imm s => setReg_advance_next (exec_ldi s r imm), fun _ => operandFaultsR fun _ _ => rfl⟩

/-- Settles O3: ADD writes the ALU's sum to one register. -/
theorem addWrapsModulo256 : Obligations.AddWrapsModulo256 := by
  refine ⟨fun _ _ => rfl, fun a b s => ?_, operandFaultsRR fun _ _ _ => rfl⟩
  obtain ⟨t, ht, hreg, hframe⟩ := setReg_advance_next (exec_add s a b)
  exact ⟨t, ht, hreg ▸ aluResult_add_toNat _ _, hframe⟩

/-- Settles O4: MUL writes the ALU's product to one register. -/
theorem mulWrapsModulo256 : Obligations.MulWrapsModulo256 := by
  refine ⟨fun _ _ => rfl, fun a b s => ?_, operandFaultsRR fun _ _ _ => rfl⟩
  obtain ⟨t, ht, hreg, hframe⟩ := setReg_advance_next (exec_mul s a b)
  exact ⟨t, ht, hreg ▸ aluResult_mul_toNat _ _, hframe⟩

/-- Settles O5: CMP writes `eq` and `pc` only. -/
theorem cmpWritesEqualOnly : Obligations.CmpWritesEqualOnly := by
  refine ⟨fun _ _ => rfl, fun a b s => ?_, operandFaultsRR fun _ _ _ => rfl⟩
  have hcontrol := setPc_sameControl (s.setEq (compareEqual (s.reg a) (s.reg b))) (s.pc + 3)
  exact ⟨_, exec_cmp s a b, compareEqual_eq_true_iff _ _, rfl, fun _ _ => rfl, fun _ _ => rfl, hcontrol⟩

end Sys2Proof.Machine

/-! PROOFS. The statements of 42_output.md. First the facts they share: what an emitting instruction leaves unchanged,
and which part of a tick adds to the output history. -/

namespace Sys2Proof.Machine

/-! ### One event emitted -/

/-- An instruction that emits one event and advances `pc` leaves everything else as it was. -/
theorem emit_advance_next {res : Result} {s : State} {k : OutKind} {v : Byte} {n : Nat}
    (h : res = .next ((s.emit k v).advance n)) :
    ∃ t, res = .next t ∧ t.out = s.out ++ [⟨k, v⟩] ∧ t.pc = s.pc + BitVec.ofNat 9 n ∧
      SameRegsBut [] s t ∧ SameMemoryBut [] s t ∧ SameControl (s.emit k v) t :=
  ⟨_, h, rfl, rfl, fun _ _ => rfl, fun _ _ => rfl, setPc_sameControl _ _⟩

/-! ### Who adds to the output history -/

/-- Of all instructions only PRN and PRA add to the output history, each its one event (R133). -/
theorem effect_out {i : Instr} {s t : State} (h : Effect i s t) :
    t.out = s.out ∨
    (∃ r : Reg, i = .prn (regByte r) ∧ t.out = s.out ++ [⟨.dec, s.reg r⟩]) ∨
    ∃ r : Reg, i = .pra (regByte r) ∧ t.out = s.out ++ [⟨.chr, s.reg r⟩] := by
  cases h with
  | prn _ r => exact .inr (.inl ⟨r, rfl, rfl⟩)
  | pra _ r => exact .inr (.inr ⟨r, rfl, rfl⟩)
  | iret =>
    obtain ⟨-, -, -, -, -, -, -, hout, -⟩ := restoreFrame_sameControl s
    exact .inl hout
  | _ => exact .inl rfl

/-- Interrupt entry emits nothing, even when it faults (R186, R189). -/
theorem interruptEntry_out {i : Line} {s t : State} (h : interruptEntry i s = .next t) : t.out = s.out := by
  obtain ⟨-, rfl⟩ | ⟨-, rfl⟩ := interruptEntry_cases h
  · rfl
  · obtain ⟨-, -, -, -, -, -, -, hout, -⟩ := saveFrame_sameControl s i (BitVec.ofNat 8 (s.pc.toNat + 2))
    exact hout

/-! ### The obligations -/

/-- Settles O43: a stopped engine, an entry and a fault emit nothing, and of all instructions only PRN and PRA do. -/
theorem onlyPrnAndPraEmit : Obligations.OnlyPrnAndPraEmit := by
  intro s t h
  rw [← s.sampleIrq_out]
  obtain ⟨-, rfl⟩ | ⟨i, -, -, hi⟩ | ⟨i, hf, -, hops, he⟩ |
    ⟨-, -, rfl⟩ | ⟨-, -, rfl⟩ | ⟨-, -, rfl⟩ := step_cases h
  · exact .inl t.sampleIrq_out.symm
  · exact .inl (interruptEntry_out hi)
  · obtain hout | ⟨r, rfl, hout⟩ | ⟨r, rfl, hout⟩ := effect_out he
    · exact .inl hout
    · exact .inr (.inl ⟨r, hf, hops 0 (regByte r) rfl, hout⟩)
    · exact .inr (.inr ⟨r, hf, hops 0 (regByte r) rfl, hout⟩)
  all_goals exact .inl rfl

/-- Settles O6: PRN emits one DEC event, and its operand byte is checked. -/
theorem prnEmitsTheNumber : Obligations.PrnEmitsTheNumber :=
  ⟨fun _ => rfl, fun r s => emit_advance_next (exec_prn s r), operandFaultsR fun _ _ => rfl⟩

/-- Settles O7: PRA emits one CHR event, and its operand byte is checked. -/
theorem praEmitsTheCharacter : Obligations.PraEmitsTheCharacter :=
  ⟨fun _ => rfl, fun r s => emit_advance_next (exec_pra s r), operandFaultsR fun _ _ => rfl⟩

end Sys2Proof.Machine

/-! PROOFS. The statements of 43_stack_memory.md. First the facts they share: what a push and a register pop leave in
the registers, and what a pop finds where a push has written. -/

namespace Sys2Proof.Machine

/-! ### Pushing -/

theorem SameRegsBut.mono {ds es : List Reg} {s t : State} (h : SameRegsBut ds s t) (hsub : ds ⊆ es) :
    SameRegsBut es s t := fun r hr => h r fun hd => hr (hsub hd)

/-- The byte below the old stack pointer is the byte pushed (R140). -/
theorem push_mem_read (s : State) (v : Byte) : (s.push v).mem.read (s.reg 7 - 1).toNat = v :=
  (State.load_push s v _).trans (if_pos rfl)

theorem State.reg_push_seven (s : State) (v : Byte) : (s.push v).reg 7 = s.reg 7 - 1 := by
  rw [State.reg_push, if_pos rfl]

theorem push_sameRegsBut (s : State) (v : Byte) : SameRegsBut [7] s (s.push v) := fun r hr => by
  rw [State.reg_push, if_neg (List.ne_of_not_mem_cons hr)]

theorem State.reg_pushReg_seven (s : State) (r : Reg) : (s.pushReg r).reg 7 = s.reg 7 - 1 :=
  State.reg_push_seven s _

theorem pushReg_sameRegsBut (s : State) (r : Reg) : SameRegsBut [7] s (s.pushReg r) := push_sameRegsBut s _

/-! ### Popping -/

/-- A pop to register 7 ends with the byte loaded plus 1, a pop to another one counts the stack pointer up (R142). -/
theorem State.reg_popReg_seven (s : State) (r : Reg) :
    (s.popReg r).reg 7 = (if r = 7 then s.load (s.reg 7) else s.reg 7) + 1 := by
  rw [State.popReg_def, State.reg_setReg, if_pos rfl]

theorem State.reg_popReg_self (s : State) {r : Reg} (h7 : r ≠ 7) : (s.popReg r).reg r = s.load (s.reg 7) := by
  rw [State.popReg_def, State.reg_setReg, if_neg h7, State.reg_setReg, if_pos rfl]

theorem popReg_sameRegsBut (s : State) (r : Reg) : SameRegsBut [r, 7] s (s.popReg r) := fun q hq => by
  obtain ⟨hr, h7⟩ : q ≠ r ∧ q ≠ 7 := by simpa using hq
  exact State.reg_popReg_other s hr h7

/-- What a pop loads right after a register push is the byte that was pushed (R142, R146). -/
theorem State.load_sp_pushReg (s : State) (r : Reg) :
    (s.pushReg r).load ((s.pushReg r).reg 7) = if r = 7 then s.reg 7 - 1 else s.reg r := by
  rw [State.reg_pushReg_seven, State.load_pushReg, if_pos rfl]

/-- A register push and then a register pop leave every register alone but the one popped and the stack pointer. -/
theorem popReg_pushReg_sameRegsBut (s : State) (src dst : Reg) :
    SameRegsBut [dst, 7] s ((s.pushReg src).popReg dst) :=
  ((pushReg_sameRegsBut s src).mono (List.subset_cons_self dst _)).trans (popReg_sameRegsBut _ dst)

/-! ### The obligations -/

/-- Settles O36: the pop loads the pushed byte from where the push wrote it, and the two moves of the stack pointer
cancel unless register 7 is the one popped. -/
theorem pushThenPopRoundTrips : Obligations.PushThenPopRoundTrips := by
  intro src dst s
  have hload := State.load_sp_pushReg s src
  refine ⟨_, _, exec_push s src, exec_pop _ dst, fun h7 => ⟨?_, ?_⟩, fun h7 => ?_,
    popReg_pushReg_sameRegsBut s src dst⟩
  · exact (State.reg_popReg_self _ h7).trans hload
  · calc ((s.pushReg src).popReg dst).reg 7
        = (s.pushReg src).reg 7 + 1 := by rw [State.reg_popReg_seven, if_neg h7]
      _ = s.reg 7 - 1 + 1 := by rw [State.reg_pushReg_seven]
      _ = s.reg 7 := BitVec.sub_add_cancel _ _
  · calc ((s.pushReg src).popReg dst).reg 7
        = (s.pushReg src).load ((s.pushReg src).reg 7) + 1 := by rw [State.reg_popReg_seven, if_pos h7]
      _ = (if src = 7 then s.reg 7 - 1 else s.reg src) + 1 := by rw [hload]

/-- Settles O8: a register push is a push of the byte read after the decrement. -/
theorem pushStoresBelowTheStackPointer : Obligations.PushStoresBelowTheStackPointer := by
  refine ⟨fun _ => rfl, fun r s => ⟨_, exec_push s r, ?_⟩, operandFaultsR fun _ _ => rfl⟩
  have hread : (s.pushReg r).mem.read (s.reg 7 - 1).toNat = if r = 7 then s.reg 7 - 1 else s.reg r := by
    rw [State.pushReg_def, push_mem_read]
  exact ⟨State.reg_pushReg_seven s r, hread, rfl, pushReg_sameRegsBut s r, pushReg_sameMemoryBut s r,
    pushReg_sameControl s r⟩

/-- Settles O9, by whether the register popped is the stack pointer. -/
theorem popLoadsFromTheStackPointer : Obligations.PopLoadsFromTheStackPointer := by
  refine ⟨fun _ => rfl, fun r s => ⟨_, exec_pop s r, fun h7 => ⟨?_, ?_⟩, fun h7 => ?_, rfl,
    popReg_sameRegsBut s r, fun _ _ => rfl, popReg_sameControl s r⟩, operandFaultsR fun _ _ => rfl⟩
  · exact State.reg_popReg_self s h7
  · rw [State.reg_advance, State.reg_popReg_seven, if_neg h7]
  · rw [State.reg_advance, State.reg_popReg_seven, if_pos h7, State.load]

/-- Settles O10: ST is one store of the engine. -/
theorem stStoresAtTheFirstRegister : Obligations.StStoresAtTheFirstRegister := by
  refine ⟨fun _ _ => rfl, fun a b s => ⟨_, exec_st s a b, ?_⟩, operandFaultsRR fun _ _ _ => rfl⟩
  have hread : (s.store (s.reg a) (s.reg b)).mem.read (s.reg a).toNat = s.reg b := by
    rw [State.store_mem, Memory.read_write, if_pos rfl]
  exact ⟨hread, rfl, fun _ _ => rfl, store_sameMemoryBut s (s.reg a) (s.reg b),
    store_sameControl s (s.reg a) (s.reg b)⟩

/-- Settles O32: the new stack pointer is the address written. -/
theorem pushWrapsAndWrites : Obligations.PushWrapsAndWrites := by
  intro s v
  rw [State.reg_push_seven]
  have hwrap : (s.reg 7 - 1).toNat = ((s.reg 7).toNat + 255) % 256 := by bv_omega
  exact ⟨hwrap, push_mem_read s v, push_sameMemoryBut s v, push_sameRegsBut s v, rfl, push_sameControl s v⟩

end Sys2Proof.Machine

/-! PROOFS. The statements of 44_control_transfer.md. First the facts they share: that the jumps write `pc` only, the
return address as a number of each width, and what RET pops and what a CALL has pushed. -/

namespace Sys2Proof.Machine

/-! ### `pc` alone written -/

/-- An instruction whose only write is `pc` leaves everything else as it was. -/
theorem setPc_next {res : Result} {s : State} {p : Pc} (h : res = .next (s.setPc p)) :
    ∃ t, res = .next t ∧ t.pc = p ∧ SameRegsBut [] s t ∧ SameMemoryBut [] s t ∧ SameControl s t :=
  ⟨_, h, rfl, fun _ _ => rfl, fun _ _ => rfl, setPc_sameControl s p⟩

/-- JEQ, as a choice between two values of `pc` (R154). -/
theorem exec_jeq_setPc (s : State) (r : Reg) :
    exec (.jeq (regByte r)) s = .next (s.setPc (if s.eq then zext9 (s.reg r) else s.pc + 2)) :=
  (exec_jeq s r).trans (congrArg _ (apply_ite s.setPc _ _ _).symm)

/-- JNE, as a choice between two values of `pc` (R155). -/
theorem exec_jne_setPc (s : State) (r : Reg) :
    exec (.jne (regByte r)) s = .next (s.setPc (if s.eq then s.pc + 2 else zext9 (s.reg r))) :=
  (exec_jne s r).trans (congrArg _ (apply_ite s.setPc _ _ _).symm)

/-! ### The return address -/

/-- As the 9 bits a fault records, the return address is the sum on `pc` (R170). -/
theorem ofNat_retAddr (p : Pc) : BitVec.ofNat 9 (p.toNat + 2) = p + 2 := by bv_omega

/-- A return address that is a byte loses nothing on the stack: back in `pc` it is the sum on `pc` (R151, R152). -/
theorem zext9_retAddr {p : Pc} (h : p.toNat + 2 < 256) : zext9 (BitVec.ofNat 8 (p.toNat + 2)) = p + 2 := by
  apply BitVec.eq_of_toNat_eq
  rw [zext9_toNat, BitVec.toNat_ofNat]
  bv_omega

/-! ### A push and a jump -/

/-- An instruction that pushes a byte and jumps writes the byte below the stack pointer, the stack pointer and `pc`
(R140, R151). -/
theorem push_jump_next {res : Result} {s : State} {v b : Byte} (h : res = .next ((s.push v).jump b)) :
    ∃ t, res = .next t ∧ t.reg 7 = s.reg 7 - 1 ∧ t.mem.read (s.reg 7 - 1).toNat = v ∧ t.pc = zext9 b ∧
      SameRegsBut [7] s t ∧ SameMemoryBut [(s.reg 7 - 1).toNat] s t ∧ SameControl s t :=
  ⟨_, h, State.reg_push_seven s v, push_mem_read s v, rfl, push_sameRegsBut s v, push_sameMemoryBut s v,
    push_sameControl s v⟩

/-! ### Popping `pc` -/

theorem State.reg_spUp_seven (s : State) : s.spUp.reg 7 = s.reg 7 + 1 := by
  rw [State.reg_spUp, if_pos rfl]

theorem spUp_sameRegsBut (s : State) : SameRegsBut [7] s s.spUp := fun r hr => by
  rw [State.reg_spUp, if_neg (List.ne_of_not_mem_cons hr)]

theorem spUp_sameControl (s : State) : SameControl s s.spUp := setReg_sameControl s _ _

/-- The top of the stack right after a push is the byte pushed (R140, R141). -/
theorem State.top_push (s : State) (v : Byte) : (s.push v).top = v := by
  rw [State.top_def, State.reg_push_seven, State.load_push, if_pos rfl]

/-- The two moves of the stack pointer cancel: a push and then a pop to no register keep every register. -/
theorem spUp_push_sameRegsBut (s : State) (v : Byte) : SameRegsBut [] s (s.push v).spUp := by
  intro q _
  by_cases hq : q = 7
  · rw [hq, State.reg_spUp_seven, State.reg_push_seven, BitVec.sub_add_cancel]
  · have h7 : q ∉ [7] := by simpa using hq
    exact (push_sameRegsBut s v).trans (spUp_sameRegsBut _) q h7

/-! ### A CALL at 0xFE -/

/-- A CALL at 0xFE is decoded: its two bytes are the last of the memory (R106). -/
theorem decode_window_call_FE {s : State} {r : Byte} (hpc : s.pc = 0xFE)
    (hop : s.mem.read s.pc.toNat = defaultOpc .call) (hr : s.mem.read 0xFF = r) :
    decode defaultOpc s.window = .ok (.call r, []) := by
  have hp : s.pc.toNat = 0xFE := congrArg BitVec.toNat hpc
  have hwindow : s.window = encode defaultOpc (.call r) ++ [] :=
    calc s.window
        = s.mem.read s.pc.toNat :: readWindow s 2 (s.pc.toNat + 1) := window_cons (by omega)
      _ = s.mem.read s.pc.toNat :: s.mem.read 0xFF :: readWindow s 1 0x100 := by
          rw [hp, readWindow_succ s 1 (by decide)]
      _ = [defaultOpc .call, r] := by rw [hop, hr, readWindow_beyond s 1 (by decide)]
  rw [hwindow, decodeInvertsEncode defaultOpc defaultOpcodeMapIsValid]

/-! ### The obligations -/

/-- Settles O37: RET pops the byte that CALL pushed, which is the whole return address, and puts the stack pointer
back. -/
theorem callThenRetReturns : Obligations.CallThenRetReturns := by
  intro r s hp
  have hregs := spUp_push_sameRegsBut s (BitVec.ofNat 8 (s.pc.toNat + 2))
  refine ⟨_, _, exec_call s r (by omega), exec_ret _, ?_, hregs⟩
  calc zext9 (s.push (BitVec.ofNat 8 (s.pc.toNat + 2))).top
      = zext9 (BitVec.ofNat 8 (s.pc.toNat + 2)) := by rw [State.top_push]
    _ = s.pc + 2 := zext9_retAddr hp

/-- Settles O11: a CALL whose return address is a byte is a push and a jump; from 254 up it is a fault, which a tick
meets at 0xFE, where the CALL still decodes. -/
theorem callPushesTheReturnAddress : Obligations.CallPushesTheReturnAddress := by
  refine ⟨fun _ => rfl, fun r s hp => ?_, fun r s _ hp => ?_, fun r s ⟨hf, _, hop⟩ hpc hr => ?_,
    operandFaultsR fun _ _ => rfl⟩
  · obtain ⟨t, ht, hsp, hread, hpc, hframe⟩ := push_jump_next (exec_call s r (by omega))
    refine ⟨t, ht, hsp, ?_, ?_, hframe⟩
    · rw [hread, BitVec.toNat_ofNat, Nat.mod_eq_of_lt hp]
    · rw [hpc, zext9_toNat, State.reg_push]
  · rw [exec_call_dataRange s r (by omega), ofNat_retAddr]
  · have hpc' : (s.sampleIrq.setIr (defaultOpc .call)).pc = 0xFE := by rw [State.setIr_pc, State.sampleIrq_pc, hpc]
    rw [stepRunsTheDecodedInstruction s _ _ hf (decode_window_call_FE hpc hop hr), hop,
      exec_call_dataRange _ r (by rw [hpc']; decide), hpc']
    rfl

/-- Settles O12: RET counts the stack pointer up and jumps to the byte it pointed at. -/
theorem retPopsTheProgramCounter : Obligations.RetPopsTheProgramCounter := by
  refine ⟨rfl, fun s => ⟨_, exec_ret s, ?_, State.reg_spUp_seven s, spUp_sameRegsBut s, fun _ _ => rfl,
    spUp_sameControl s⟩⟩
  rw [State.jump_pc, zext9_toNat, State.top_def, State.load]

/-- Settles O13: JMP writes `pc` only. -/
theorem jmpGoesToTheRegister : Obligations.JmpGoesToTheRegister := by
  refine ⟨fun _ => rfl, fun r s => ?_, operandFaultsR fun _ _ => rfl⟩
  obtain ⟨t, ht, hpc, hframe⟩ := setPc_next (exec_jmp s r)
  exact ⟨t, ht, hpc ▸ zext9_toNat _, hframe⟩

/-- Settles O14: JEQ writes `pc` only, and its operand byte is checked before `eq` is read. -/
theorem jeqJumpsWhenEqual : Obligations.JeqJumpsWhenEqual := by
  refine ⟨fun _ => rfl, fun r s => ?_, operandFaultsR fun _ _ => rfl⟩
  obtain ⟨t, ht, hpc, hframe⟩ := setPc_next (exec_jeq_setPc s r)
  refine ⟨t, ht, fun heq => ?_, fun heq => ?_, hframe⟩
  · rw [hpc, if_pos heq, zext9_toNat]
  · rw [hpc, if_neg (ne_true_of_eq_false heq)]

/-- Settles O15: JNE writes `pc` only, and its operand byte is checked before `eq` is read. -/
theorem jneJumpsWhenNotEqual : Obligations.JneJumpsWhenNotEqual := by
  refine ⟨fun _ => rfl, fun r s => ?_, operandFaultsR fun _ _ => rfl⟩
  obtain ⟨t, ht, hpc, hframe⟩ := setPc_next (exec_jne_setPc s r)
  refine ⟨t, ht, fun heq => ?_, fun heq => ?_, hframe⟩
  · rw [hpc, if_neg (ne_true_of_eq_false heq), zext9_toNat]
  · rw [hpc, if_pos heq]

end Sys2Proof.Machine

/-! PROOFS. The statements of 45_interrupt_instructions.md. First the facts they share: what a run of register pushes
leaves in memory and a run of register pops in the registers, the frame that interrupt entry saves, where IRET reads it,
and which line the interrupt check takes. -/

namespace Sys2Proof.Machine

/-! ### Registers pushed one after the other -/

/-- Slot `k + 1` below a stack pointer is slot `k` below the pointer lowered once (R140). -/
theorem slot_succ (sp : Byte) (k : Nat) :
    sp - 1 - BitVec.ofNat 8 (k + 1) = sp - 1 - 1 - BitVec.ofNat 8 k := by
  rw [BitVec.ofNat_add]
  bv_omega

/-- The slots below a stack pointer do not come round to its own address (R140). -/
theorem not_mem_stackSlots {sp : Byte} {n : Nat} (hn : n < 256) : sp.toNat ∉ stackSlots sp n := by
  rw [mem_stackSlots]
  rintro ⟨k, hk, heq⟩
  bv_omega

/-- Pushes leave the byte at the stack pointer they start from alone. -/
theorem pushRegs_load_sp {rs : List Reg} (s : State) (hn : rs.length < 256) :
    (rs.foldl State.pushReg s).load (s.reg 7) = s.load (s.reg 7) :=
  pushRegs_sameMemoryBut rs s _ (not_mem_stackSlots hn)

/-- Pushed register number `k` lies in slot `k` below the stack pointer; register 7 is stored as the address of its own
slot (R142). -/
theorem pushRegs_load {rs : List Reg} {k : Nat} {r : Reg} (s : State) (hn : rs.length ≤ 256) (hk : rs[k]? = some r) :
    (rs.foldl State.pushReg s).load (s.reg 7 - 1 - BitVec.ofNat 8 k) =
      if r = 7 then s.reg 7 - 1 - BitVec.ofNat 8 k else s.reg r := by
  induction rs generalizing s k with
  | nil => simp at hk
  | cons q rs ih =>
    have hsp : (s.pushReg q).reg 7 = s.reg 7 - 1 := State.reg_pushReg_seven s q
    cases k with
    | zero =>
      obtain rfl : q = r := by simpa using hk
      have hfirst := pushRegs_load_sp (rs := rs) (s.pushReg q) hn
      rw [State.load_sp_pushReg, hsp] at hfirst
      simpa using hfirst
    | succ k =>
      have hrest := ih (s.pushReg q) (Nat.le_of_succ_le hn) (by simpa using hk)
      rw [hsp] at hrest
      rw [slot_succ, List.foldl_cons, hrest]
      by_cases hr : r = 7 <;> simp [hr]

/-! ### Registers popped one after the other -/

@[simp] theorem State.load_popReg (s : State) (r : Reg) (a : Byte) : (s.popReg r).load a = s.load a := rfl

theorem popRegs_load (rs : List Reg) (s : State) (a : Byte) : (rs.foldl State.popReg s).load a = s.load a := by
  induction rs generalizing s with
  | nil => rfl
  | cons r rs ih => exact ih (s.popReg r)

/-- Pops to registers other than the stack pointer count it up once each (R141). -/
theorem popRegs_reg_seven {rs : List Reg} (s : State) (h7 : 7 ∉ rs) :
    (rs.foldl State.popReg s).reg 7 = s.reg 7 + BitVec.ofNat 8 rs.length := by
  induction rs generalizing s with
  | nil => simp
  | cons r rs ih =>
    obtain ⟨hr, hrs⟩ := List.ne_and_not_mem_of_not_mem_cons h7
    rw [List.foldl_cons, ih _ hrs, State.reg_popReg_seven, if_neg (Ne.symm hr), List.length_cons, BitVec.ofNat_add]
    bv_omega

theorem popRegs_reg_other {rs : List Reg} {r : Reg} (s : State) (h7 : r ≠ 7) (hr : r ∉ rs) :
    (rs.foldl State.popReg s).reg r = s.reg r := by
  induction rs generalizing s with
  | nil => rfl
  | cons q rs ih =>
    obtain ⟨hq, hrs⟩ := List.ne_and_not_mem_of_not_mem_cons hr
    exact (ih _ hrs).trans (State.reg_popReg_other s hq h7)

/-- Popped register number `k` is the byte `k` above the stack pointer, where no register is popped twice and the stack
pointer is not among them (R142). -/
theorem popRegs_reg {rs : List Reg} {k : Nat} {r : Reg} (s : State) (hnd : rs.Nodup) (h7 : 7 ∉ rs)
    (hk : rs[k]? = some r) : (rs.foldl State.popReg s).reg r = s.load (s.reg 7 + BitVec.ofNat 8 k) := by
  induction rs generalizing s k with
  | nil => simp at hk
  | cons q rs ih =>
    obtain ⟨hq, hnd⟩ := List.nodup_cons.mp hnd
    obtain ⟨hq7, h7⟩ := List.ne_and_not_mem_of_not_mem_cons h7
    rw [List.foldl_cons]
    cases k with
    | zero =>
      obtain rfl : q = r := by simpa using hk
      rw [popRegs_reg_other _ (Ne.symm hq7) hq, State.reg_popReg_self s (Ne.symm hq7), BitVec.add_zero]
    | succ k =>
      have hslot : s.reg 7 + 1 + BitVec.ofNat 8 k = s.reg 7 + BitVec.ofNat 8 (k + 1) := by
        rw [BitVec.ofNat_add]
        bv_omega
      rw [ih _ hnd h7 (by simpa using hk), State.reg_popReg_seven, if_neg (Ne.symm hq7), hslot,
        State.load_popReg]

/-! ### The frame interrupt entry saves (R163, R186) -/

@[simp] theorem State.reg_clearPending (s : State) (i : Line) (r : Reg) :
    (s.clearPending i).reg r = if r = 6 then s.reg 6 &&& ~~~ lineBit i else s.reg r :=
  State.reg_setReg s r 6 _

/-- The save steps push from the stack pointer as it was. -/
theorem State.reg_seven_beforeSave (s : State) (i : Line) : ((s.setIe false).clearPending i).reg 7 = s.reg 7 := by
  simp

/-- The return address lies in the first slot below the old stack pointer. -/
theorem saveFrame_load_ret (s : State) (i : Line) (ret : Byte) :
    (s.saveFrame i ret).load (s.reg 7 - 1) = ret := by
  have hfirst := pushRegs_load_sp (rs := pushOrder) (((s.setIe false).clearPending i).push ret) (by decide)
  rw [← State.top_def, State.top_push, State.reg_push_seven, State.reg_seven_beforeSave] at hfirst
  exact hfirst

/-- Register `r` lies in the slot `r + 1` further down, register 6 less the line's bit; register 7 is stored as the
address of its own slot (R142). -/
theorem saveFrame_load_reg (s : State) (i : Line) (ret : Byte) (r : Reg) :
    (s.saveFrame i ret).load (s.reg 7 - 1 - BitVec.ofNat 8 (r.val + 1)) =
      if r = 7 then s.reg 7 - 9 else (s.clearPending i).reg r := by
  have horder : ∀ r : Reg, pushOrder[r.val]? = some r := by decide
  have hload := pushRegs_load (((s.setIe false).clearPending i).push ret) (by decide) (horder r)
  rw [State.reg_push_seven, State.reg_seven_beforeSave, ← slot_succ] at hload
  rw [State.saveFrame, hload]
  by_cases hr : r = 7
  · subst hr
    rw [if_pos rfl, if_pos rfl]
    bv_omega
  · simp [hr]

/-- An entry whose return address is a byte leaves the memory as the save steps do (R186). -/
theorem interruptEntry_load {i : Line} {s t : State} (hp : s.pc.toNat + 2 < 256)
    (h : interruptEntry i s = .next t) (a : Byte) :
    t.load a = (s.saveFrame i (BitVec.ofNat 8 (s.pc.toNat + 2))).load a := by
  obtain ⟨hfault, -⟩ | ⟨-, rfl⟩ := interruptEntry_cases h
  · omega
  · rw [State.load_jump]

/-! ### Where IRET reads the frame (R162) -/

/-- The registers IRET pops after register 7. -/
theorem popOrder_eq_cons : popOrder = 7 :: [6, 5, 4, 3, 2, 1, 0] := rfl

section

variable {s : State} {q : Byte}

/-- The pop of register 7 redirects the ones after it to the byte popped, plus 1. -/
theorem popReg_seven_reg (hq : q = s.load (s.reg 7) + 1) : (s.popReg 7).reg 7 = q := by
  rw [State.reg_popReg_seven, if_pos rfl, hq]

theorem popOrder_reg_seven (hq : q = s.load (s.reg 7) + 1) : (popOrder.foldl State.popReg s).reg 7 = q + 7 := by
  rw [popOrder_eq_cons, List.foldl_cons, popRegs_reg_seven _ (by decide), popReg_seven_reg hq]
  rfl

theorem restoreFrame_reg_seven (hq : q = s.load (s.reg 7) + 1) : s.restoreFrame.reg 7 = q + 8 := by
  rw [State.restoreFrame, State.reg_setIe, State.reg_jump, State.reg_spUp_seven, popOrder_reg_seven hq]
  bv_omega

theorem restoreFrame_pc (hq : q = s.load (s.reg 7) + 1) : s.restoreFrame.pc = zext9 (s.load (q + 7)) := by
  rw [State.restoreFrame, State.setIe_pc, State.jump_pc, State.top_def, popRegs_load, popOrder_reg_seven hq]

theorem restoreFrame_reg {r : Reg} (hq : q = s.load (s.reg 7) + 1) (h7 : r ≠ 7) :
    s.restoreFrame.reg r = s.load (q + BitVec.ofNat 8 (6 - r.val)) := by
  have horder : ∀ r : Reg, r ≠ 7 → ([6, 5, 4, 3, 2, 1, 0] : List Reg)[6 - r.val]? = some r := by decide
  rw [State.restoreFrame, State.reg_setIe, State.reg_jump, State.reg_spUp, if_neg h7, popOrder_eq_cons,
    List.foldl_cons, popRegs_reg _ (by decide) (by decide) (horder r h7), popReg_seven_reg hq,
    State.load_popReg]

end

/-! ### The interrupt check (R184, R185) -/

/-- The order of priority is that of the line numbers. -/
theorem allLines_eq_finRange : allLines = List.finRange 8 := by decide

theorem State.pending_def (s : State) : s.pending = s.reg 6 &&& s.reg 5 := rfl

/-- With `ie = 1`, a pending and unmasked line with none before it is the one taken. -/
theorem takenLine_eq_some {s : State} {i : Line} (hie : s.ie = true) (hi : s.pending.getLsbD i.val = true)
    (hlower : ∀ j : Line, j < i → s.pending.getLsbD j.val = false) : s.takenLine = some i := by
  rw [State.takenLine, if_pos hie, allLines_eq_finRange, ← Fin.find?_eq_find?_finRange, Fin.find?_eq_some_iff]
  exact ⟨hi, hlower⟩

theorem State.sampleIrq_of_nil {s : State} (h : s.irqIn = []) : s.sampleIrq = s := by
  obtain ⟨-, hs⟩ | ⟨_, _, hcons, -⟩ := s.sampleIrq_cases
  · exact hs
  · exact absurd (h.symm.trans hcons) nofun

/-- A running tick whose check takes a line is the entry for that line (R101). -/
theorem step_taken {s : State} {i : Line} (hr : s.run = .running) (hl : s.sampleIrq.takenLine = some i) :
    step s = interruptEntry i s.sampleIrq :=
  (tick_running hr).trans (cycle_taken hl)

/-! ### The obligations -/

/-- Settles O49: the frame found is the one saved, so the stack pointer popped leads IRET back up through the nine
slots. -/
theorem iretUndoesInterruptEntry : Obligations.IretUndoesInterruptEntry := by
  intro i s t u hp hentry hsp hframe
  have hslots {k : Nat} (hk : k < 9) : u.load (s.reg 7 - 1 - BitVec.ofNat 8 k) =
      (s.saveFrame i (BitVec.ofNat 8 (s.pc.toNat + 2))).load (s.reg 7 - 1 - BitVec.ofNat 8 k) :=
    Eq.trans (hframe k hk) (interruptEntry_load hp hentry _)
  have hret : u.load (s.reg 7 - 1) = BitVec.ofNat 8 (s.pc.toNat + 2) := by
    have h0 := hslots (k := 0) (by decide)
    rwa [BitVec.sub_zero, saveFrame_load_ret] at h0
  have hreg (r : Reg) : u.load (s.reg 7 - 1 - BitVec.ofNat 8 (r.val + 1)) =
      if r = 7 then s.reg 7 - 9 else (s.clearPending i).reg r := by
    rw [hslots (by omega), saveFrame_load_reg]
  have hq : s.reg 7 - 8 = u.load (u.reg 7) + 1 := by
    have hslot : s.reg 7 - 9 = s.reg 7 - 1 - BitVec.ofNat 8 ((7 : Reg).val + 1) := by bv_omega
    rw [hsp, hslot, hreg, if_pos rfl]
    bv_omega
  have hrestored {r : Reg} (h7 : r ≠ 7) : u.restoreFrame.reg r = (s.clearPending i).reg r := by
    have hslot : s.reg 7 - 8 + BitVec.ofNat 8 (6 - r.val) = s.reg 7 - 1 - BitVec.ofNat 8 (r.val + 1) := by
      have hlt : r.val < 7 := Fin.val_lt_last h7
      bv_omega
    rw [restoreFrame_reg hq h7, hslot, hreg, if_neg h7]
  obtain ⟨-, hie, heq, -⟩ := restoreFrame_sameControl u
  refine ⟨_, exec_iret u, fun r hr => ?_, ?_, ?_, hie, heq, fun _ _ => by rw [State.restoreFrame_mem]⟩
  · by_cases h7 : r = 7
    · rw [h7, restoreFrame_reg_seven hq, BitVec.sub_add_cancel]
    · rw [hrestored h7, State.reg_clearPending, if_neg (List.ne_of_not_mem_cons hr)]
  · rw [hrestored (by decide), State.reg_clearPending, if_pos rfl, lineBit]
  · have hslot : s.reg 7 - 8 + 7 = s.reg 7 - 1 := by bv_omega
    rw [restoreFrame_pc hq, hslot, hret, zext9_retAddr hp]

/-- Settles O53: after the LDI the pending lines are those of `v` in IM, and the next tick's check finds the least. -/
theorem writingStatusRaisesAnInterrupt : Obligations.WritingStatusRaisesAnInterrupt := by
  intro v s t i hr hie hirq hexec hi hlower
  obtain ⟨t', hnext, hv, -, hregs, -, -, hie', -, hrun', -, -, -, -, hirq'⟩ := setReg_advance_next (exec_ldi s 6 v)
  obtain rfl : t' = t := Host.Outcome.next.inj (hnext.symm.trans hexec)
  have hsample : t'.sampleIrq = t' := State.sampleIrq_of_nil (hirq'.trans hirq)
  have hpending : t'.pending = v &&& s.reg 5 := by rw [State.pending_def, hv, hregs 5 (by decide)]
  have htaken : t'.takenLine = some i :=
    takenLine_eq_some (hie'.trans hie) (hpending ▸ hi) fun j hj => hpending ▸ hlower j hj
  rw [step_taken (hrun'.trans hr) (hsample.symm ▸ htaken), hsample]

/-- Settles O16: INT writes `pc` only, and its operand byte is checked. -/
theorem intOnlyAdvances : Obligations.IntOnlyAdvances :=
  ⟨fun _ => rfl, fun r s => setPc_next (exec_int s r), operandFaultsR fun _ _ => rfl⟩

/-- Settles O17: each register and `pc` is the byte at its place above the redirected pointer. -/
theorem iretRestoresFromTheStack : Obligations.IretRestoresFromTheStack := by
  refine ⟨rfl, fun s => ⟨_, exec_iret s, fun q hq => ?_, ?_⟩⟩
  · have hreg {r : Reg} (h7 : r ≠ 7) := restoreFrame_reg hq h7
    refine ⟨?_, hreg (by decide), hreg (by decide), hreg (by decide), hreg (by decide), hreg (by decide),
      hreg (by decide), ?_, restoreFrame_reg_seven hq⟩
    · exact (hreg (by decide)).trans (congrArg s.load (BitVec.add_zero q))
    · rw [restoreFrame_pc hq, zext9_toNat, State.load]
  · obtain ⟨-, hie, -⟩ := restoreFrame_sameControl s
    exact ⟨hie, fun _ _ => by rw [State.restoreFrame_mem], restoreFrame_sameControl s⟩

end Sys2Proof.Machine

/-! PROOFS. The statements of 60_exceptions.md. First the facts they share: what a raise leaves unchanged, which fault an
instruction or a step can end in, the sampling of requests, and the registers that interrupt entry leaves. -/

namespace Sys2Proof.Machine

/-! ### Raising a fatal condition -/

theorem raise_sameRegsBut (s : State) (f : Fault) : SameRegsBut [] s (s.raise f) := fun r _ => State.reg_raise s f r

/-- The fetch of a sampled state puts the byte at `pc` in `ir` (R104). -/
theorem State.sampleIrq_fetched_ir (s : State) : s.sampleIrq.fetched.ir = s.mem.read s.pc.toNat := by
  rw [State.fetched_ir, State.sampleIrq_mem, State.sampleIrq_pc]

/-! ### The fault an instruction ends in -/

@[simp] theorem isRegByte_regByte (r : Reg) : isRegByte (regByte r) = true := by
  simp [isRegByte]

/-- The effect of an instruction with a reserved operand byte is the ILLEGAL_OPERAND of one such byte: every other effect
is that of register operands (R175). -/
theorem effect_of_not_wellFormed {i : Instr} {s t : State} (h : Effect i s t) (hw : ¬ i.WellFormed) :
    ∃ (k : Nat) (b : Byte), (k = 0 ∨ k = 1) ∧ i.operands[k]? = some b ∧ 8 ≤ b.toNat ∧
      t = s.raise (.illegalOperand (s.pc + BitVec.ofNat 9 (k + 1)) b) := by
  cases h with
  | illegalFirst _ _ b _ ho hb => exact ⟨0, b, .inl rfl, by simp [ho], hb, rfl⟩
  | illegalSecond _ _ _ b ho hb => exact ⟨1, b, .inr rfl, by simp [ho], hb, rfl⟩
  | _ => exact absurd (by simp [Instr.WellFormed, Instr.wf]) hw

/-- A well-formed instruction that ends FAULTED is a CALL whose return address is not a byte (R173). -/
theorem effect_faulted_of_wellFormed {i : Instr} {s t : State} (h : Effect i s t) (hw : i.WellFormed)
    (hs : s.run = .running) (ht : t.run = .faulted) :
    i.mnemonic = .call ∧ 254 ≤ s.pc.toNat ∧ t = s.raise (.dataRange s.pc (BitVec.ofNat 9 (s.pc.toNat + 2))) := by
  have hkept {u : State} (hu : u.run = s.run) : u.run ≠ .faulted := by simp [hu, hs]
  cases h with
  | callDataRange _ _ hp => exact ⟨rfl, hp, rfl⟩
  | illegalFirst _ _ _ _ _ _ hn | illegalSecond _ _ _ _ _ _ hn => exact absurd hw hn
  | hlt => exact absurd ht nofun
  | iret =>
    obtain ⟨-, -, -, hrun, -⟩ := restoreFrame_sameControl s
    exact absurd ht (hkept hrun)
  | _ => exact absurd ht (hkept rfl)

/-- An instruction in memory at `pc` that ends FAULTED has raised a fatal condition, and the latches record it. -/
theorem effect_faulted {i : Instr} {s t : State} (h : Effect i s t) (hs : s.run = .running) (ht : t.run = .faulted)
    (hfit : s.pc.toNat + i.mnemonic.width ≤ 256)
    (hops : ∀ k b, i.operands[k]? = some b → s.mem.read (s.pc.toNat + 1 + k) = b) :
    (∃ f, t = s.raise f) ∧ t.FaultRecord := by
  by_cases hw : i.WellFormed
  · obtain ⟨-, hp, rfl⟩ := effect_faulted_of_wellFormed h hw hs ht
    exact ⟨⟨_, rfl⟩, raise_dataRange_faultRecord hp⟩
  · obtain ⟨k, b, hk, hop, hb, rfl⟩ := effect_of_not_wellFormed h hw
    obtain ⟨hrecord, -⟩ := illegalOperand_latchesMatch hk hop hb hfit hops
    exact ⟨⟨_, rfl⟩, hrecord rfl⟩

/-- An entry that ends FAULTED has raised DATA_RANGE before any change (R189). -/
theorem interruptEntry_faulted {i : Line} {s t : State} (h : interruptEntry i s = .next t) (hs : s.run = .running)
    (ht : t.run = .faulted) :
    254 ≤ s.pc.toNat ∧ t = s.raise (.dataRange s.pc (BitVec.ofNat 9 (s.pc.toNat + 2))) := by
  obtain hfault | ⟨-, rfl⟩ := interruptEntry_cases h
  · exact hfault
  · obtain ⟨-, -, -, hrun, -⟩ := saveFrame_sameControl s i (BitVec.ofNat 8 (s.pc.toNat + 2))
    exact absurd (hrun.symm.trans ht) (by simp [hs])

/-- A step that ends FAULTED has raised a fatal condition in the sampled state, with the opcode byte in `ir` if it fetched
one; and the latches record it (R174). -/
theorem step_faulted {s t : State} (h : step s = .next t) (hs : s.run = .running) (ht : t.run = .faulted) :
    ((∃ f, t = s.sampleIrq.fetched.raise f) ∧ (s.Fetches ∧ s.pc.toNat < 256) ∨
      (∃ f, t = s.sampleIrq.raise f) ∧ ¬ (s.Fetches ∧ s.pc.toNat < 256)) ∧
    (s.pc.toNat ≤ 256 → t.FaultRecord) := by
  have hs' : s.sampleIrq.run = .running := by rwa [State.sampleIrq_run]
  obtain ⟨hno, -⟩ | ⟨i, -, hl, hi⟩ | ⟨i, ⟨hf, hpc, -⟩, hfit, hops, he⟩ |
    ⟨-, hpc, rfl⟩ | ⟨hf, hpc, rfl⟩ | ⟨hf, hpc, rfl⟩ := step_cases h
  · exact absurd hs hno
  · obtain ⟨hp, rfl⟩ := interruptEntry_faulted hi hs' ht
    have hnofetch : ¬ s.Fetches := fun ⟨_, hnone⟩ => absurd (hl.symm.trans hnone) nofun
    exact ⟨.inr ⟨⟨_, rfl⟩, fun hf => hnofetch hf.1⟩, fun _ => raise_dataRange_faultRecord hp⟩
  · obtain ⟨hraise, hrecord⟩ := effect_faulted he hs' ht (by simpa using hfit) (by simpa using hops)
    exact ⟨.inl ⟨hraise, hf, hpc⟩, fun _ => hrecord⟩
  · refine ⟨.inr ⟨⟨_, rfl⟩, fun hf => absurd hf.2 hpc.not_gt⟩, fun hle => ?_⟩
    have h256 : s.pc = 256 := BitVec.eq_of_toNat_eq (Nat.le_antisymm hle hpc)
    exact h256 ▸ raise_memRange_faultRecord _
  · have hrecord := raise_invalidOpcode_faultRecord s.sampleIrq.fetched
    rw [State.sampleIrq_fetched_ir, State.fetched_pc, State.sampleIrq_pc] at hrecord
    exact ⟨.inl ⟨⟨_, rfl⟩, hf, hpc⟩, fun _ => hrecord⟩
  · exact ⟨.inl ⟨⟨_, rfl⟩, hf, hpc⟩, fun _ => raise_memRange_faultRecord _⟩

/-! ### What a fetching tick decodes -/

theorem tick_fetches {opc : OpcodeMap} {s : State} (h : s.Fetches) : tick opc s = fetchExecute opc s.sampleIrq := by
  obtain ⟨hr, hl⟩ := h
  rw [tick_running hr, cycle_fetches hl]

/-- A byte without a handler does not decode, whatever follows it (R90). -/
theorem decode_invalidOpcode {opc : OpcodeMap} {op : Byte} (h : lookup opc op = none) (bs : List Byte) :
    decode opc (op :: bs) = .error (.invalidOpcode op) := by
  simp only [decode, h]

/-- A tick that fetches a byte without a handler raises INVALID_OPCODE (R172). -/
theorem tick_invalidOpcode {opc : OpcodeMap} {s : State} (hf : s.Fetches) (hpc : s.pc.toNat < 256)
    (hl : lookup opc (s.mem.read s.pc.toNat) = none) :
    tick opc s = .next (s.sampleIrq.fetched.raise (.invalidOpcode s.pc (s.mem.read s.pc.toNat))) := by
  have hd : decode opc s.sampleIrq.window = .error (.invalidOpcode (s.mem.read s.pc.toNat)) := by
    rw [window_sampleIrq, window_cons hpc, decode_invalidOpcode hl]
  rw [tick_fetches hf, fetchExecute_error hd, State.undecoded, State.sampleIrq_pc]

/-- The operand bytes of a decoded instruction are the bytes of memory behind `pc` (R81). -/
theorem decode_window_operand {opc : OpcodeMap} {s : State} {i : Instr} {rest : List Byte} {k : Nat} {b : Byte}
    (hd : decode opc s.window = .ok (i, rest)) (hk : i.operands[k]? = some b) :
    s.mem.read (s.pc.toNat + (k + 1)) = b := by
  obtain ⟨op, bs, hwindow, -, rfl⟩ := decode_ok hd
  obtain ⟨hlt, -⟩ := List.getElem?_eq_some_iff.mp hk
  apply readWindow_getElem (n := 3)
  rw [← State.window, hwindow, List.getElem?_cons_succ, List.getElem?_append_left hlt, hk]

/-- An instruction with a reserved operand byte raises ILLEGAL_OPERAND for one such byte (R175). -/
theorem exec_of_not_wellFormed {i : Instr} (s : State) (hw : ¬ i.WellFormed) :
    ∃ (k : Nat) (b : Byte), (k = 0 ∨ k = 1) ∧ i.operands[k]? = some b ∧ 8 ≤ b.toNat ∧
      exec i s = .next (s.raise (.illegalOperand (s.pc + BitVec.ofNat 9 (k + 1)) b)) := by
  obtain ⟨t, ht⟩ := exec_next i s
  obtain ⟨k, b, hk, hop, hb, rfl⟩ := effect_of_not_wellFormed (exec_effect ht) hw
  exact ⟨k, b, hk, hop, hb, ht⟩

/-! ### Requests (R181) -/

theorem State.sampleIrq_of_cons {s : State} {bits : Byte} {later : List Byte} (h : s.irqIn = bits :: later) :
    s.sampleIrq = { s.request bits with irqIn := later } := by
  simp only [State.sampleIrq, h]

/-- A request sets bits of register 6 and changes nothing else. -/
theorem request_frame (s : State) (bits : Byte) :
    (s.request bits).reg 6 = s.reg 6 ||| bits ∧ SameRegsBut [6] s (s.request bits) ∧ (s.request bits).mem = s.mem ∧
      (s.request bits).pc = s.pc ∧ SameControl s (s.request bits) :=
  registersHoldWhatIsWritten s 6 (s.reg 6 ||| bits)

/-- The mask of a line has that line's bit and no other (R6). -/
theorem lineBit_getLsbD : ∀ line i : Line, (lineBit line).getLsbD i.val = decide (i = line) := by decide

/-! ### The interrupt check and interrupt entry (R184, R186) -/

/-- With `ie = 0`, or no line both pending and unmasked, the check takes none. -/
theorem takenLine_eq_none {s : State} (h : s.ie = false ∨ s.pending = 0) : s.takenLine = none := by
  cases hl : s.takenLine with
  | none => rfl
  | some i =>
    obtain ⟨hie, hi⟩ := takenLine_some hl
    obtain hoff | hzero := h
    · exact absurd (hoff.symm.trans hie) nofun
    · simp [hzero] at hi

/-- Register pushes count the stack pointer down once each and change no other register (R140). -/
theorem pushRegs_reg (rs : List Reg) (s : State) (r : Reg) :
    (rs.foldl State.pushReg s).reg r = if r = 7 then s.reg 7 - BitVec.ofNat 8 rs.length else s.reg r := by
  induction rs generalizing s with
  | nil => by_cases hr : r = 7 <;> simp [hr]
  | cons q rs ih =>
    rw [List.foldl_cons, ih, State.reg_pushReg, State.reg_pushReg, if_pos rfl, List.length_cons, BitVec.ofNat_add]
    by_cases hr : r = 7
    · rw [if_pos hr, if_pos hr]
      bv_omega
    · rw [if_neg hr, if_neg hr, if_neg hr]

/-- The save steps leave the stack pointer nine lower and change register 6 besides, by the line's bit. -/
theorem saveFrame_reg (s : State) (i : Line) (ret : Byte) (r : Reg) :
    (s.saveFrame i ret).reg r = if r = 7 then s.reg 7 - 9 else (s.clearPending i).reg r := by
  rw [State.saveFrame, pushRegs_reg, State.reg_push_seven, State.reg_seven_beforeSave]
  by_cases hr : r = 7
  · rw [if_pos hr, if_pos hr, show pushOrder.length = 8 from rfl]
    bv_omega
  · rw [if_neg hr, if_neg hr, State.reg_push, if_neg hr]
    rfl

theorem saveFrame_reg_six (s : State) (i : Line) (ret : Byte) :
    (s.saveFrame i ret).reg 6 = s.reg 6 &&& ~~~ lineBit i := by
  rw [saveFrame_reg, if_neg (by decide), State.reg_clearPending, if_pos rfl]

theorem saveFrame_sameRegsBut (s : State) (i : Line) (ret : Byte) :
    SameRegsBut [6, 7] s (s.saveFrame i ret) := fun r hr => by
  obtain ⟨h6, h7⟩ : r ≠ 6 ∧ r ≠ 7 := by simpa using hr
  rw [saveFrame_reg, if_neg h7, State.reg_clearPending, if_neg h6]

/-- The byte `r + 2` below the old stack pointer is register `r` as the save steps leave it (R163). -/
theorem saveFrame_load_slot (s : State) (i : Line) (ret : Byte) (r : Reg) :
    (s.saveFrame i ret).load (s.reg 7 - BitVec.ofNat 8 (r.val + 2)) = (s.saveFrame i ret).reg r := by
  have hslot : s.reg 7 - BitVec.ofNat 8 (r.val + 2) = s.reg 7 - 1 - BitVec.ofNat 8 (r.val + 1) := by bv_omega
  rw [hslot, saveFrame_load_reg, saveFrame_reg]

/-- The vector table's last entry is the last byte of the memory: its addresses do not wrap (R56). -/
theorem vectorAddr_toNat : ∀ i : Line, (vectorAddr i).toNat = 0xF8 + i.val := by decide

/-- An entry whose return address is a byte saves the frame and jumps through the vector entry (R186). -/
theorem interruptEntry_saves {s : State} (i : Line) (h : s.pc.toNat + 2 < 256) :
    interruptEntry i s = .next ((s.saveFrame i (BitVec.ofNat 8 (s.pc.toNat + 2))).jump
      ((s.saveFrame i (BitVec.ofNat 8 (s.pc.toNat + 2))).load (vectorAddr i))) := by
  obtain ⟨t, ht⟩ := interruptEntry_next i s
  obtain ⟨hp, -⟩ | ⟨-, rfl⟩ := interruptEntry_cases ht
  · omega
  · exact ht

/-- An entry whose return address is not a byte is DATA_RANGE (R189). -/
theorem interruptEntry_dataRange {s : State} (i : Line) (h : 256 ≤ s.pc.toNat + 2) :
    interruptEntry i s = .next (s.raise (.dataRange s.pc (s.pc + 2))) := by
  obtain ⟨t, ht⟩ := interruptEntry_next i s
  obtain ⟨-, rfl⟩ | ⟨hp, -⟩ := interruptEntry_cases ht
  · rw [ht, ofNat_retAddr]
  · omega

/-! ### The obligations -/

/-- Settles O48: the bytes saved are the return address and the registers as the save steps leave them, and those steps
change only registers 6 and 7. -/
theorem interruptEntrySavesTheFrame : Obligations.InterruptEntrySavesTheFrame := by
  refine ⟨fun i s hp => ⟨_, interruptEntry_saves i hp, ?_⟩, fun i s _ hp => interruptEntry_dataRange i hp⟩
  generalize ht : s.saveFrame i (BitVec.ofNat 8 (s.pc.toNat + 2)) = t
  have hcontrol : SameControl (s.setIe false) t := ht ▸ saveFrame_sameControl s i _
  have hregs : SameRegsBut [6, 7] s t := ht ▸ saveFrame_sameRegsBut s i _
  have hsix : t.reg 6 = s.reg 6 &&& ~~~ lineBit i := ht ▸ saveFrame_reg_six s i _
  have hseven : t.reg 7 = s.reg 7 - 9 := ht ▸ saveFrame_reg s i _ 7
  have hmem : SameMemoryBut (stackSlots (s.reg 7) 9) s t := ht ▸ saveFrame_sameMemoryBut s i _
  have hret : (t.load (s.reg 7 - 1)).toNat = s.pc.toNat + 2 := by
    rw [← ht, saveFrame_load_ret, BitVec.toNat_ofNat, Nat.mod_eq_of_lt hp]
  have hslot (r : Reg) : t.load (s.reg 7 - BitVec.ofNat 8 (r.val + 2)) = t.reg r :=
    ht ▸ saveFrame_load_slot s i _ r
  have hsaved {r : Reg} (hr : r ∉ [6, 7]) : t.load (s.reg 7 - BitVec.ofNat 8 (r.val + 2)) = s.reg r :=
    (hslot r).trans (hregs r hr)
  have htarget : (zext9 (t.load (vectorAddr i))).toNat = (t.mem.read (0xF8 + i.val)).toNat := by
    rw [zext9_toNat, State.load, vectorAddr_toNat]
  have ⟨_, hie, _⟩ := hcontrol
  exact ⟨hie, hsix, hseven, hregs, hret, hsaved (r := 0) (by decide), hsaved (r := 1) (by decide),
    hsaved (r := 2) (by decide), hsaved (r := 3) (by decide), hsaved (r := 4) (by decide),
    hsaved (r := 5) (by decide), hslot 6, (hslot 7).trans hseven, hmem, htarget, hcontrol⟩

/-- Settles O45: a step that ends FAULTED is a raise, which keeps all but the run state and the latches. -/
theorem faultsArePrecise : Obligations.FaultsArePrecise := by
  intro s t h hs ht
  obtain ⟨⟨⟨f, rfl⟩, hfetch⟩ | ⟨⟨f, rfl⟩, hfetch⟩, hrecord⟩ := step_faulted h hs ht
  · exact ⟨raise_sameRegsBut _ f, s.sampleIrq_pc, s.sampleIrq_mem, s.sampleIrq_ie, s.sampleIrq_eq, s.sampleIrq_out,
      fun _ => s.sampleIrq_fetched_ir, fun hno => absurd hfetch hno, hrecord⟩
  · exact ⟨raise_sameRegsBut _ f, s.sampleIrq_pc, s.sampleIrq_mem, s.sampleIrq_ie, s.sampleIrq_eq, s.sampleIrq_out,
      fun hyes => absurd hyes hfetch, fun _ => s.sampleIrq_ir, hrecord⟩

/-- Settles O46: the effects of an instruction with a reserved operand byte and of one without, each at the operand bytes
that memory holds behind `pc`. -/
theorem illegalOperandsFaultEverywhere : Obligations.IllegalOperandsFaultEverywhere := by
  refine ⟨fun i s hw => ?_, fun s i rest hf hd hw => ?_, fun i s t hw hs h ht => ?_⟩
  · obtain ⟨k, b, hk, hop, hb, hexec⟩ := exec_of_not_wellFormed s hw
    exact ⟨k + 1, b, by omega, hop, hb, hexec⟩
  · obtain ⟨k, b, hk, hop, hb, hexec⟩ := exec_of_not_wellFormed (s.sampleIrq.setIr (s.mem.read s.pc.toNat)) hw
    have hread : s.mem.read (s.pc.toNat + (k + 1)) = b := decode_window_operand hd hop
    rw [State.setIr_pc, State.sampleIrq_pc] at hexec
    refine ⟨k + 1, by omega, hread.symm ▸ hb, ?_⟩
    rw [stepRunsTheDecodedInstruction s i rest hf hd, hexec, hread]
  · obtain ⟨hcall, hp, rfl⟩ := effect_faulted_of_wellFormed (exec_effect h) hw hs ht
    exact ⟨hcall, rfl, hp⟩

/-- Settles O27: the fetched byte decodes to nothing, and the raise keeps all but the run state and the latches. -/
theorem invalidOpcodeFaults : Obligations.InvalidOpcodeFaults := by
  intro opc s hf hpc hl
  exact ⟨_, tick_invalidOpcode hf hpc hl, rfl, rfl, rfl, zext9_toNat _, s.sampleIrq_fetched_ir, s.sampleIrq_pc,
    raise_sameRegsBut _ _, fun a _ => congrArg (Memory.read · a) s.sampleIrq_mem, s.sampleIrq_ie, s.sampleIrq_eq,
    s.sampleIrq_out⟩

/-- Settles O47: the check takes the least line that is pending and unmasked, and none if there is none. -/
theorem lowestPendingLineIsTaken : Obligations.LowestPendingLineIsTaken := by
  refine ⟨fun s i hr hie hi hlower => ?_, fun s hr hnone => ?_⟩
  · exact step_taken hr (takenLine_eq_some (s.sampleIrq_ie.trans hie) hi hlower)
  · exact step_fetches ⟨hr, takenLine_eq_none (hnone.imp_left s.sampleIrq_ie.trans)⟩

/-- Settles O44: the values are read off `State.raise`. -/
theorem raiseWritesTheLatches : Obligations.RaiseWritesTheLatches :=
  ⟨fun f s => ⟨rfl, raise_sameRegsBut s f, rfl, rfl, rfl, rfl, rfl, rfl⟩,
    fun _ _ op => ⟨rfl, rfl, zext9_toNat op⟩, fun _ _ => ⟨rfl, rfl, rfl⟩,
    fun _ _ b => ⟨rfl, rfl, zext9_toNat b⟩, fun _ _ _ => ⟨rfl, rfl, rfl⟩⟩

/-- Settles O50: the next value of the schedule is a request. -/
theorem requestsOnlySetPendingBits : Obligations.RequestsOnlySetPendingBits := by
  refine ⟨fun s => tick_running, fun s => State.sampleIrq_of_nil, fun s bits later h => ?_⟩
  obtain ⟨hset, hregs, -⟩ := request_frame s bits
  rw [State.sampleIrq_of_cons h]
  exact ⟨hset, rfl, hregs, rfl, rfl, SameControl.refl _⟩

/-- Settles O52: the timer's request is a request of its line's bit. -/
theorem timerSetsItsLineOnly : Obligations.TimerSetsItsLineOnly := by
  refine ⟨fun s line => ?_, fun s => ?_⟩
  · obtain ⟨hset, hframe⟩ := request_frame s (lineBit line)
    refine ⟨fun i => ?_, hframe⟩
    rw [State.timerRequest, hset, BitVec.getLsbD_or, lineBit_getLsbD]
  · obtain ⟨hset, -⟩ := request_frame s (lineBit Config.timerLine)
    exact hset

end Sys2Proof.Machine

/-! PROOFS. The statements of 70_reset_and_hazards.md. First the facts they share: which line the interrupt check takes
when some line asks, and what is pending after a request and after reset. -/

namespace Sys2Proof.Machine

/-! ### The interrupt check (R185) -/

/-- With `ie = 1`, a pending and unmasked line makes the check take it or a line of higher priority: the least one that
asks. -/
theorem exists_takenLine_le {s : State} {i : Line} (hie : s.ie = true) (hi : s.pending.getLsbD i.val = true) :
    ∃ j : Line, j ≤ i ∧ s.takenLine = some j := by
  obtain ⟨j, hji, hmin⟩ := exists_minimal_le_of_wellFoundedLT (fun k : Line => s.pending.getLsbD k.val = true) i hi
  have hlower (k : Line) (hk : k < j) : s.pending.getLsbD k.val = false :=
    Bool.eq_false_of_not_eq_true (hmin.not_prop_of_lt hk)
  exact ⟨j, hji, takenLine_eq_some hie hmin.prop hlower⟩

/-! ### What is pending -/

/-- A line whose request is sampled in this tick is pending in it if IM has its bit (R181). -/
theorem sampleIrq_pending_of_request {s : State} {bits : Byte} {later : List Byte} {i : Line}
    (h : s.irqIn = bits :: later) (hbit : bits.getLsbD i.val = true) (hmask : (s.reg 5).getLsbD i.val = true) :
    s.sampleIrq.pending.getLsbD i.val = true := by
  obtain ⟨-, -, hrequests⟩ := requestsOnlySetPendingBits
  obtain ⟨hset, -⟩ := hrequests s bits later h
  rw [State.pending_def, hset, State.sampleIrq_reg s (by decide), BitVec.getLsbD_and, BitVec.getLsbD_or, hbit, hmask,
    Bool.or_true, Bool.and_self]

/-- Reset masks every line, so the requests sampled after it find none to take (R220). -/
theorem applyReset_sampleIrq_pending (s : State) : s.applyReset.sampleIrq.pending = 0 := by
  obtain ⟨hzero, -⟩ := resetGivesTheTable s
  rw [State.pending_def, State.sampleIrq_reg (r := 5) _ (by decide), hzero 5 (by decide)]
  exact BitVec.and_zero

/-! ### The obligations -/

/-- Settles O51: the requested line is pending and unmasked once the request is sampled, so the check takes it or one
before it. -/
theorem requestIsTakenAtOnce : Obligations.RequestIsTakenAtOnce := by
  intro s bits later i hr hie hirq hbit hmask
  obtain ⟨j, hji, htaken⟩ :=
    exists_takenLine_le (s.sampleIrq_ie.trans hie) (sampleIrq_pending_of_request hirq hbit hmask)
  exact ⟨j, hji, step_taken hr htaken⟩

/-- Settles O55: reset masks every line and puts `pc` at 0, so the tick fetches there. -/
theorem firstTickFetchesAtZero : Obligations.FirstTickFetchesAtZero := by
  intro s
  obtain ⟨-, -, hpc, -, -, -, -, -, -, -, -, hmem⟩ := resetGivesTheTable s
  have hfetches : s.applyReset.Fetches := ⟨rfl, takenLine_eq_none (.inr (applyReset_sampleIrq_pending s))⟩
  have hzero : s.applyReset.pc.toNat = 0 := congrArg BitVec.toNat hpc
  refine ⟨hfetches, ?_⟩
  rw [window_cons (by omega), List.getElem?_cons_zero, hzero, hmem]

end Sys2Proof.Machine
